-- ==== Sys2Proof/Word.lean ====
section
/-! DEFINITION. The words of the block: bytes, command words, header words and the size register's word
(spec/00_scope.md R6, R7). Every value is unsigned (R7). -/

namespace Sys2Proof

/-- One element of the captured bytes: 8 bits (R6 `BYTE_W`, R22). Bit 7 is the most significant (R8). -/
abbrev Byte := BitVec 8

/-- A command word `CW[9:0]` (R6 `CW_W`, R60). -/
abbrev CommandWord := BitVec 10

/-- A header word `W[79:0]` (R64). -/
abbrev HeaderBits := BitVec 80

/-- The width of the register `SIZE` (R6 `SIZE_W`, R29). -/
abbrev SizeWord := BitVec 32

/-- The width of the capture count `LEN` (R6 `LEN_W`, R23). -/
abbrev LenWord := BitVec 5

end Sys2Proof
end

