-- ==== Sys2Proof/Config.lean ====
section
/-! DEFINITION. The parameters of the block (spec/00_scope.md R6), all fixed, and the one free value. -/

namespace Sys2Proof

/-- `CAP`: capacity of the buffer in bytes (R6). -/
abbrev Config.cap : Nat := 20

/-- `HDR_LEN`: least number of captured bytes for a verdict (R6). -/
abbrev Config.hdrLen : Nat := 10

/-- `SIG`: the signature bytes `'I','D','3'` (R6, R90). -/
abbrev Config.sig0 : Byte := 0x49#8

/-- Second byte of `SIG` (R6, R90). -/
abbrev Config.sig1 : Byte := 0x44#8

/-- Third byte of `SIG` (R6, R90). -/
abbrev Config.sig2 : Byte := 0x33#8

/-- `VERSION_RESERVED`: the value version and revision may not take (R6, R91). -/
abbrev Config.versionReserved : Byte := 0xFF#8

/-- `FLAGS_MASK`: the legal bits of the flags byte (R6, R92). -/
abbrev Config.flagsMask : Byte := 0xE0#8

/-- `SIZE_BYTE_LIMIT`: every size byte is strictly below this (R6, R93). -/
abbrev Config.sizeByteLimit : Byte := 0x80#8

/-- `SIZE_RADIX`: radix of the size field (R6, R104). -/
abbrev Config.sizeRadix : Nat := 128

/-- FREE VALUE (log 4; R22, U8: "any value"). What the cell of `BUF` at this address holds while nothing has
written it. It has no body, so no proof can see a value of it. -/
opaque Config.unwrittenByte : Nat → Byte

end Sys2Proof
end

