-- ==== Sys2Proof/Syntax.lean ====
section
/-! DEFINITION. The syntax of the block: the header word with its ten fields, the instructions (one constructor
for each row of spec/opcode_table.json), and what the host can put on the command port. -/

namespace Sys2Proof

/-- The header word of format `H`, field by field (spec/30_encoding.md R65): the ten bytes of the word with
`sig0` (byte index 0) first. `sz3` is the most significant size digit (byte index 6). -/
structure HeaderWord where
  sig0 : Byte
  sig1 : Byte
  sig2 : Byte
  ver : Byte
  rev : Byte
  flags : Byte
  sz3 : Byte
  sz2 : Byte
  sz1 : Byte
  sz0 : Byte
  deriving DecidableEq, Repr

/-- The rows of spec/opcode_table.json. The first four are the commands (R61); the field `imm8` that `BEGIN`,
`VALID` and `DEC` ignore (R62) is no operand of theirs. The fifth row, `ID3V2_HEADER`, is the data word that
`VALID` and `DEC` decode (R64, R65; log 1). -/
inductive Instr where
  /-- `BEGIN` (R81). -/
  | begin
  /-- `PUSH imm8` (R82). -/
  | push (imm8 : Byte)
  /-- `VALID` (R95). -/
  | valid
  /-- `DEC` (R106). -/
  | dec
  /-- `ID3V2_HEADER`: the ten header bytes (R64, R65, R94). -/
  | id3v2Header (h : HeaderWord)
  deriving DecidableEq, Repr

/-- A word as the host presents it: a 10-bit command word (R60) or an 80-bit header word (R64; log 1). -/
inductive PortWord where
  | command (cw : CommandWord)
  | header (w : HeaderBits)
  deriving DecidableEq, Repr

/-- One event at the block's inputs: a word is presented, or the reset input fires (R139, R150; log 2). -/
inductive PortEvent where
  | present (w : PortWord)
  | reset
  deriving DecidableEq, Repr

/-- The input of one step of the block as the spec has it (R16 items 1 to 3): the next command word, which the host
chooses, or the reset input. A header word is no command, so it is no input here (log 1). -/
inductive BlockInput where
  | command (cw : CommandWord)
  | reset
  deriving DecidableEq, Repr

/-- The event at the port that an input of the block is. -/
def BlockInput.toEvent : BlockInput → PortEvent
  | .command cw => .present (.command cw)
  | .reset => .reset

end Sys2Proof
end

