-- ==== Sys2Proof/Decode.lean ====
section
/-! DEFINITION. Decoding and encoding (spec/30_encoding.md). Decoding a word the port carries is total (R62): no
command word and no header word is refused. Only byte lists that are no word of the port are rejected, by name. -/

namespace Sys2Proof

/-! ## Format C: the command word (R60 to R63) -/

/-- The field `op = CW[9:8]` (R60). -/
def opField (cw : CommandWord) : BitVec 2 := cw.extractLsb' 8 2

/-- The field `imm8 = CW[7:0]` (R60). -/
def imm8Field (cw : CommandWord) : Byte := cw.extractLsb' 0 8

/-- The opcode map: four values of `op`, four commands, no value unused (R61, R62). -/
def decodeCommand (cw : CommandWord) : Instr :=
  match (opField cw).toNat with
  | 0 => .begin
  | 1 => .push (imm8Field cw)
  | 2 => .valid
  | _ => .dec

/-- A command word from its two fields (R60). -/
def commandWord (op : BitVec 2) (imm8 : Byte) : CommandWord := op ++ imm8

/-- One row of the opcode map: `w` is the command of the row when `w & mask == pattern` (R61). -/
structure CommandRow where
  mnemonic : String
  mask : CommandWord
  pattern : CommandWord
  deriving DecidableEq, Repr

/-- The opcode map as the spec's table writes it (R61). -/
def commandRows : List CommandRow :=
  [⟨"BEGIN", 0x300#10, 0x000#10⟩, ⟨"PUSH", 0x300#10, 0x100#10⟩,
   ⟨"VALID", 0x300#10, 0x200#10⟩, ⟨"DEC", 0x300#10, 0x300#10⟩]

/-- A word belongs to a row (R61). -/
def CommandRow.matchesWord (r : CommandRow) (w : CommandWord) : Bool := w &&& r.mask == r.pattern

/-- The mnemonic of an instruction, as spec/opcode_table.json spells it. -/
def Instr.mnemonic : Instr → String
  | .begin => "BEGIN"
  | .push _ => "PUSH"
  | .valid => "VALID"
  | .dec => "DEC"
  | .id3v2Header _ => "ID3V2_HEADER"

/-! ## Format H: the header word (R64, R65) -/

/-- Byte `i` of the header word, `BUF[i] = W[79 - 8*i : 72 - 8*i]` (R64). -/
def headerByte (w : HeaderBits) (i : Nat) : Byte := w.extractLsb' (72 - 8 * i) 8

/-- The ten fields of a header word (R65). -/
def headerOfBits (w : HeaderBits) : HeaderWord where
  sig0 := headerByte w 0
  sig1 := headerByte w 1
  sig2 := headerByte w 2
  ver := headerByte w 3
  rev := headerByte w 4
  flags := headerByte w 5
  sz3 := headerByte w 6
  sz2 := headerByte w 7
  sz1 := headerByte w 8
  sz0 := headerByte w 9

/-- `W = BUF[0] ++ BUF[1] ++ ... ++ BUF[9]` (R64). -/
def headerToBits (h : HeaderWord) : HeaderBits :=
  h.sig0 ++ h.sig1 ++ h.sig2 ++ h.ver ++ h.rev ++ h.flags ++ h.sz3 ++ h.sz2 ++ h.sz1 ++ h.sz0

/-- The ten bytes in stream order, index 0 first (R9, R44). -/
def headerToBytes (h : HeaderWord) : List Byte :=
  [h.sig0, h.sig1, h.sig2, h.ver, h.rev, h.flags, h.sz3, h.sz2, h.sz1, h.sz0]

/-- The fixed bits of a legal header word (R65 `mask`). -/
def headerMask : HeaderBits := 0xFFFFFF00001F80808080#80

/-- The values of the fixed bits of a legal header word (R65 `match`). -/
def headerMatch : HeaderBits := 0x49443300000000000000#80

/-! ## The decoder of the port's words, and the encoder -/

/-- The instruction a word of the port stands for; total (R62, R68). -/
def decode : PortWord → Instr
  | .command cw => decodeCommand cw
  | .header w => .id3v2Header (headerOfBits w)

/-- The word of an instruction; canonical, with `imm8 == 0` where it is ignored (R61, R62, R64). -/
def encode : Instr → PortWord
  | .begin => .command (commandWord 0b00#2 0#8)
  | .push b => .command (commandWord 0b01#2 b)
  | .valid => .command (commandWord 0b10#2 0#8)
  | .dec => .command (commandWord 0b11#2 0#8)
  | .id3v2Header h => .header (headerToBits h)

/-! ## Words as bytes

The block stores no command anywhere (R33, R54), so the spec gives a command word no layout in bytes. The host's
interface needs one (log 7, DESIGN CHOICE): two bytes, the low byte first, the six bits above `CW[9]` zero. A header
word is its ten bytes in stream order (R64). -/

/-- Why a list of bytes is no word of the port. -/
inductive DecodeError where
  /-- The list has neither two bytes (a command word) nor ten (a header word); R71 knows no other length. -/
  | noSuchLength (n : Nat)
  /-- The second byte of a command word has a bit above `CW[9]`; R60: a command word is 10 bits. -/
  | bitsAboveCommandWord (hi : Byte)
  deriving DecidableEq, Repr

/-- The word that a list of bytes holds; total, and what it does not take it rejects by name. -/
def wordOfBytes : List Byte → Except DecodeError PortWord
  | [lo, hi] =>
    if hi.extractLsb' 2 6 = 0#6 then .ok (.command (commandWord (hi.extractLsb' 0 2) lo))
    else .error (.bitsAboveCommandWord hi)
  | [b0, b1, b2, b3, b4, b5, b6, b7, b8, b9] =>
    .ok (.header (headerToBits ⟨b0, b1, b2, b3, b4, b5, b6, b7, b8, b9⟩))
  | bs => .error (.noSuchLength bs.length)

/-- The bytes of a word, laid out as `wordOfBytes` reads them. -/
def wordToBytes : PortWord → List Byte
  | .command cw => [imm8Field cw, (opField cw).setWidth 8]
  | .header w => headerToBytes (headerOfBits w)

/-- The instruction a list of bytes stands for, or the name of what is wrong with it. -/
def decodeBytes (bs : List Byte) : Except DecodeError Instr := (wordOfBytes bs).map decode

/-- The bytes of an instruction's word. -/
def encodeBytes (i : Instr) : List Byte := wordToBytes (encode i)

/-- Lay a table word out in bytes: up to 16 bits are a command word, low byte first (log 7); more are a header word
of 80 bits, its most significant byte first (R64). A number with a bit above these has no layout. -/
def tableBytes (nbits w : Nat) : Option (List Byte) :=
  if nbits ≤ 16 then
    if w < 2 ^ 16 then some [BitVec.ofNat 8 w, BitVec.ofNat 8 (w / 256)] else none
  else if nbits ≤ 80 then
    if w < 2 ^ 80 then some (headerToBytes (headerOfBits (BitVec.ofNat 80 w))) else none
  else none

/-- The word of the port that a table word stands for. -/
def tableWord (nbits w : Nat) : Option PortWord :=
  match tableBytes nbits w with
  | some bs => (wordOfBytes bs).toOption
  | none => none

/-- The instruction the decoder reads from a word numbered as spec/opcode_table.json numbers it; none where the
decoder refuses. -/
def decodeTableWord (nbits w : Nat) : Option Instr := (tableWord nbits w).map decode

end Sys2Proof
end

