-- ==== Sys2Proof/Machine/State.lean ====
section
/-! DEFINITION. The state of the block as plain data (spec/10_state.md R20), the queue at its command port beside it, the
state right after reset, and the reasons a step can stop. -/

namespace Sys2Proof.Machine

/-- The codes of `RES` (R24). Code 7 is never produced, so the type has seven values (R24, U9; log 9). -/
inductive Res where
  /-- 0: no `VALID` or `DEC` has run since reset or the last `BEGIN`. -/
  | rNone
  /-- 1: `VALID` returned true. -/
  | rTrue
  /-- 2: `VALID` returned false, an ordinary negative result (R129). -/
  | rFalse
  /-- 3: `DEC` succeeded. -/
  | rHeader
  /-- 4: failure, the sequence is absent. -/
  | eAbsent
  /-- 5: failure, fewer than 10 bytes captured. -/
  | eShort
  /-- 6: failure, the header word is not legal. -/
  | eTag
  deriving DecidableEq, Repr

/-- The two kinds of failure (R120). -/
inductive FailureKind where
  | invalidInput
  | invalidTag
  deriving DecidableEq, Repr

/-- The causes of failure (R121). -/
inductive FailureCause where
  /-- `PRESENT == 0`. -/
  | absent
  /-- `PRESENT == 1` and `LEN < 10`. -/
  | short
  /-- Ten bytes or more, and the header word is not legal. -/
  | tag
  deriving DecidableEq, Repr

/-- The captured bytes, as (address, byte) cells. Canonical form (`Memory.wf`): addresses strictly rising, each below
20 (R41). An address that is not listed holds no byte yet; what it reads as is the free value
`Config.unwrittenByte` (log 4). -/
abbrev Memory := List Host.Cell

/-- The state of the block: the nine elements of R20, and nothing else (R16 item 2, R34). -/
structure BlockState where
  /-- `PRESENT` (R21). -/
  present : Bool
  /-- `LEN`, 5 bits (R23). -/
  len : LenWord
  /-- `BUF[0..19]` (R22). -/
  buf : Memory
  /-- `RES` (R24). -/
  res : Res
  /-- `HV` (R25). -/
  hv : Bool
  /-- `VER` (R26). -/
  ver : Byte
  /-- `REV` (R27). -/
  rev : Byte
  /-- `FLAGS` (R28). -/
  flags : Byte
  /-- `SIZE`, 32 bits (R29). -/
  size : SizeWord
  deriving DecidableEq, Repr

/-- The state of a machine that steps by itself: the block's state, and beside it the queue of what the host has offered
and the block has not taken yet. The queue is no state of the block (R16 item 2): it feeds the inputs of `blockStep` to
`step` one after another (log 2). -/
structure State extends BlockState where
  /-- The command port's queue, oldest first: the model's own field (log 2). -/
  port : List PortEvent
  deriving DecidableEq, Repr

/-- The state after reset (R150; spec/10_state.md section 10). `BUF` has no reset value: nothing is listed (R22,
R151; log 4). Nothing waits at the port (log 2). -/
def State.reset : State where
  present := false
  len := 0#5
  buf := []
  res := .rNone
  hv := false
  ver := 0x00#8
  rev := 0x00#8
  flags := 0x00#8
  size := 0x00000000#32
  port := []

/-- Why the machine could stop with a fault. It has NO constructor: nobody raises a fault, since every command has a
next state in every state (R128: "the step function is total, its result is always a next state"). Safe: there is no
stop that the block does not have. -/
inductive Fault : Type
  deriving DecidableEq, Repr

/-- Why an instruction could be refused. -/
inductive Refusal where
  /-- Raised by an arm of `exec` whose instruction has no meaning yet; no arm uses it, for every row of the table has
  its meaning. Safe where it stands: the model stops where the block goes on. -/
  | notModelled (mnemonic : String)
  deriving DecidableEq, Repr

end Sys2Proof.Machine
end

