-- ==== Sys2Proof/Machine/Ops.lean ====
section
/-! DEFINITION. The named operations over the buffer, the count, the outcome and the header record, and raising a
failure as one shared operation (spec/60_exceptions.md R124), with what leaves a failure beside it (R126). -/

namespace Sys2Proof.Machine

/-! ## The buffer (R40 to R43) -/

/-- The byte an address holds, if something has written it. -/
def Memory.readByte : Memory → Nat → Option Byte
  | [], _ => none
  | (k, v) :: m, a => if k = a then some v else Memory.readByte m a

/-- `MemWrite(a, 1, b)` (R11): the cell `a` holds `b`, every other cell what it held. -/
def Memory.writeByte : Memory → Nat → Byte → Memory
  | [], a, b => [(a, b)]
  | (k, v) :: m, a, b =>
    if a < k then (a, b) :: (k, v) :: m
    else if a = k then (a, b) :: m
    else (k, v) :: Memory.writeByte m a b

/-- Every cell lies above `lo` and below the buffer's end, addresses strictly rising. -/
def Memory.wfFrom : Nat → Memory → Bool
  | _, [] => true
  | lo, (k, _) :: m => decide (lo ≤ k) && decide (k < Config.cap) && Memory.wfFrom (k + 1) m

/-- The canonical form: addresses strictly rising, all of them addresses of the buffer (R41). An unlisted address
holds no byte, so no entry equals what an unlisted address holds. -/
def Memory.wf (m : Memory) : Bool := Memory.wfFrom 0 m

/-- `MemRead(a, 1)` (R11, R43): the byte in cell `a`; the free value where nothing has written it (log 4). -/
def State.loadByte (s : State) (a : Nat) : Byte := (s.buf.readByte a).getD (Config.unwrittenByte a)

/-- `MemWrite(a, 1, b)` on the state (R11, R43). -/
def State.storeByte (s : State) (a : Nat) (b : Byte) : State := { s with buf := s.buf.writeByte a b }

/-! ## The capture count and the sequence (R21, R23) -/

/-- `LEN <- LEN + 1` in 5 bits; done only below 20, so it never wraps (R110). -/
def State.advanceLen (s : State) : State := { s with len := s.len + 1#5 }

/-- A present, empty sequence: `PRESENT <- 1`, `LEN <- 0`; `BUF` is not written (R81). -/
def State.openSequence (s : State) : State := { s with present := true, len := 0#5 }

/-- An absent sequence: `PRESENT <- 0`, `LEN <- 0`; `BUF` is not written (R150). -/
def State.dropSequence (s : State) : State := { s with present := false, len := 0#5 }

/-! ## The header record (R25 to R29) -/

/-- No header record: `HV`, `VER`, `REV`, `FLAGS`, `SIZE` all zero (R25, R106). -/
def State.clearHeader (s : State) : State :=
  { s with hv := false, ver := 0x00#8, rev := 0x00#8, flags := 0x00#8, size := 0#32 }

/-- A header record: the four registers written together, `HV <- 1` (R32, R106). -/
def State.setHeader (s : State) (ver rev flags : Byte) (size : SizeWord) : State :=
  { s with hv := true, ver := ver, rev := rev, flags := flags, size := size }

/-! ## The outcome, and failures (R24, R120 to R128) -/

/-- `RES <- r`. -/
def State.setRes (s : State) (r : Res) : State := { s with res := r }

/-- The 3-bit code of an outcome (R24). -/
def Res.code : Res → BitVec 3
  | .rNone => 0#3
  | .rTrue => 1#3
  | .rFalse => 2#3
  | .rHeader => 3#3
  | .eAbsent => 4#3
  | .eShort => 5#3
  | .eTag => 6#3

/-- The codes 4, 5 and 6 are failures; 0 to 3 are not (R121, R129). -/
def Res.isFailure : Res → Bool
  | .rNone => false
  | .rTrue => false
  | .rFalse => false
  | .rHeader => false
  | .eAbsent => true
  | .eShort => true
  | .eTag => true

/-- The outcome that reports a cause (R121). -/
def FailureCause.outcome : FailureCause → Res
  | .absent => .eAbsent
  | .short => .eShort
  | .tag => .eTag

/-- The kind of a cause (R120, R121). -/
def FailureCause.kind : FailureCause → FailureKind
  | .absent => .invalidInput
  | .short => .invalidInput
  | .tag => .invalidTag

/-- ENTRY into a failure, the one shared operation (R124): `RES <- code` and nothing else. Nothing is saved, no mode
changes, control goes nowhere. -/
def State.raise (s : State) (c : FailureCause) : State := s.setRes c.outcome

/-- LEAVING a failure (R126): there is no return command; the outcome of the invocation is forgotten by `BEGIN` and
by reset (R81, R150), and overwritten by the next `VALID` or `DEC`. -/
def State.clearOutcome (s : State) : State := s.setRes .rNone

end Sys2Proof.Machine
end

