-- ==== Sys2Proof/Machine/Flags.lean ====
section
/-! DEFINITION. The unit `FLAGX` (spec/00_scope.md R15): the legality test of the flags byte, the three header flags,
the derived view `FULL`, and the twelve outputs that the host samples (spec/10_state.md R30, R31, R37). -/

namespace Sys2Proof.Machine

/-- Condition 3: `(b5 & 0xE0) == b5` (R92). -/
def flagsOk (b5 : Byte) : Bool := b5 &&& Config.flagsMask == b5

/-- Unsynchronisation: bit 7 of a flags byte, mask 0x80 (R30, R103). -/
def unsyncOf (flags : Byte) : Bool := flags.getLsbD 7

/-- Extended header: bit 6 of a flags byte, mask 0x40 (R30, R103). -/
def exthdrOf (flags : Byte) : Bool := flags.getLsbD 6

/-- Experimental: bit 5 of a flags byte, mask 0x20 (R30, R103). -/
def experOf (flags : Byte) : Bool := flags.getLsbD 5

/-- The output `UNSYNC` (R30). -/
def State.unsync (s : State) : Bool := unsyncOf s.flags

/-- The output `EXTHDR` (R30). -/
def State.exthdr (s : State) : Bool := exthdrOf s.flags

/-- The output `EXPER` (R30). -/
def State.exper (s : State) : Bool := experOf s.flags

/-- The output `FULL`: `LEN == 20` (R31). -/
def State.full (s : State) : Bool := s.len.toNat == Config.cap

/-- What the host can see between two commands (R37). `BUF` is not among it. -/
structure Outputs where
  present : Bool
  len : LenWord
  full : Bool
  res : BitVec 3
  hv : Bool
  ver : Byte
  rev : Byte
  flags : Byte
  size : SizeWord
  unsync : Bool
  exthdr : Bool
  exper : Bool
  deriving DecidableEq, Repr

/-- Sampling the outputs (R37): a function of the state, no command, no side effect. -/
def State.outputs (s : State) : Outputs where
  present := s.present
  len := s.len
  full := s.full
  res := s.res.code
  hv := s.hv
  ver := s.ver
  rev := s.rev
  flags := s.flags
  size := s.size
  unsync := s.unsync
  exthdr := s.exthdr
  exper := s.exper

end Sys2Proof.Machine
end

