-- ==== Sys2Proof/Machine/SyncSafe.lean ====
section
/-! DEFINITION. The unit `SSDEC` (spec/00_scope.md R15): the legality test of the size bytes and the sync-safe size
(spec/41_validate.md R93, spec/42_decode.md R104, R105). -/

namespace Sys2Proof.Machine

/-- One size byte is legal: strictly below 0x80, unsigned (R93). -/
def sizeByteOk (b : Byte) : Bool := b.ult Config.sizeByteLimit

/-- Condition 4 (R93). -/
def sizeOk (b6 b7 b8 b9 : Byte) : Bool := sizeByteOk b6 && sizeByteOk b7 && sizeByteOk b8 && sizeByteOk b9

/-- The exact number that four bytes stand for, radix 128, most significant digit first (R104). -/
def syncSafeNat (b6 b7 b8 b9 : Byte) : Nat :=
  ((b6.toNat * Config.sizeRadix + b7.toNat) * Config.sizeRadix + b8.toNat) * Config.sizeRadix + b9.toNat

/-- `SyncSafe(b6, b7, b8, b9)`, held in 32 bits (R104, R110). -/
def syncSafe (b6 b7 b8 b9 : Byte) : SizeWord := BitVec.ofNat 32 (syncSafeNat b6 b7 b8 b9)

/-- The bit form: the high bit of each byte dropped and the four 7-bit digits side by side (R105). -/
def syncSafeBits (b6 b7 b8 b9 : Byte) : SizeWord :=
  (b6.extractLsb' 0 7 ++ b7.extractLsb' 0 7 ++ b8.extractLsb' 0 7 ++ b9.extractLsb' 0 7).setWidth 32

end Sys2Proof.Machine
end

