-- ==== Sys2Proof/Machine/Operands.lean ====
section
/-! DEFINITION. The operands of the commands: where `PUSH` stores (spec/20_memory.md R42, spec/40_capture.md R82), the
captured header word that `VALID` and `DEC` read (R42, R64), the two failures of the captured sequence itself (R123),
and the fields of a header word (spec/42_decode.md R100 to R104). -/

namespace Sys2Proof.Machine

/-- The address a `PUSH` stores to: `LEN`, when `PRESENT == 1` and `LEN < 20`; otherwise it stores nothing (R42,
R82). -/
def State.pushAddress (s : State) : Option Nat :=
  if s.present && decide (s.len.toNat < Config.cap) then some s.len.toNat else none

/-- The header word of the captured bytes: the ten loads from addresses 0 to 9, in one read (R42, R64). -/
def State.headerWord (s : State) : HeaderWord where
  sig0 := s.loadByte 0
  sig1 := s.loadByte 1
  sig2 := s.loadByte 2
  ver := s.loadByte 3
  rev := s.loadByte 4
  flags := s.loadByte 5
  sz3 := s.loadByte 6
  sz2 := s.loadByte 7
  sz1 := s.loadByte 8
  sz0 := s.loadByte 9

/-- The failures of the sequence itself, in their order: absent, then too small (R123). None: there are ten bytes to
look at. -/
def State.inputFailure (s : State) : Option FailureCause :=
  if s.present = false then some .absent
  else if s.len.toNat < Config.hdrLen then some .short
  else none

/-- `FieldVer(b3) = b3` (R100). -/
def fieldVer (h : HeaderWord) : Byte := h.ver

/-- `FieldRev(b4) = b4` (R101). -/
def fieldRev (h : HeaderWord) : Byte := h.rev

/-- `FieldFlags(b5) = b5`, the byte whole (R102). -/
def fieldFlags (h : HeaderWord) : Byte := h.flags

/-- The size of a header word (R67, R104). -/
def fieldSize (h : HeaderWord) : SizeWord := syncSafe h.sz3 h.sz2 h.sz1 h.sz0

end Sys2Proof.Machine
end

