-- ==== Sys2Proof/Machine/Capture.lean ====
section
/-! DEFINITION. The capture commands `BEGIN` and `PUSH` (spec/40_capture.md). -/

namespace Sys2Proof.Machine

/-- The state after `BEGIN` (R81): a present, empty sequence, no outcome, no header record; `BUF` is not written. -/
def State.afterBegin (s : State) : State := s.openSequence.clearOutcome.clearHeader

/-- The state after `PUSH b` (R82): the byte stored at `LEN` and `LEN` advanced; nothing at all when the sequence is
absent or 20 bytes are held. -/
def State.afterPush (s : State) (b : Byte) : State :=
  match s.pushAddress with
  | some a => (s.storeByte a b).advanceLen
  | none => s

/-- `BEGIN` (R81): it cannot fail and needs no precondition. -/
def execBegin (s : State) : Host.Outcome State Fault Refusal := .next s.afterBegin

/-- `PUSH imm8` (R82): it never fails and never writes `RES`. -/
def execPush (imm8 : Byte) (s : State) : Host.Outcome State Fault Refusal := .next (s.afterPush imm8)

end Sys2Proof.Machine
end

