-- ==== Sys2Proof/Machine/Validate.lean ====
section
/-! DEFINITION. The unit `SIGCHK`, the predicate of the four conditions, and the command `VALID`
(spec/41_validate.md). -/

namespace Sys2Proof.Machine

/-- Condition 1, the signature check, exact and without case folding (R90). -/
def sigOk (b0 b1 b2 : Byte) : Bool := b0 == Config.sig0 && b1 == Config.sig1 && b2 == Config.sig2

/-- Condition 2: version and revision each strictly below 0xFF, unsigned (R91). -/
def verOk (b3 b4 : Byte) : Bool := b3.ult Config.versionReserved && b4.ult Config.versionReserved

/-- `Legal10`: all four conditions hold (R94). -/
def legal10 (h : HeaderWord) : Bool :=
  sigOk h.sig0 h.sig1 h.sig2 && verOk h.ver h.rev && flagsOk h.flags && sizeOk h.sz3 h.sz2 h.sz1 h.sz0

/-- The state after `VALID` (R95): `RES` only is written. -/
def State.afterValid (s : State) : State :=
  match s.inputFailure with
  | some c => s.raise c
  | none => if legal10 s.headerWord then s.setRes .rTrue else s.setRes .rFalse

/-- `VALID` (R95). -/
def execValid (s : State) : Host.Outcome State Fault Refusal := .next s.afterValid

end Sys2Proof.Machine
end

