-- ==== Sys2Proof/Machine/DecodeHeader.lean ====
section
/-! DEFINITION. The command `DEC` (spec/42_decode.md). The fields are read from the captured bytes in place (R108) and
the size is compared with nothing (R107). -/

namespace Sys2Proof.Machine

/-- Why a `DEC` fails, if it does: absent, too small, not legal, in this order (R106, R123). -/
def State.decFailure (s : State) : Option FailureCause :=
  match s.inputFailure with
  | some c => some c
  | none => if legal10 s.headerWord then none else some .tag

/-- The header record of a header word, all four registers at once (R106). -/
def State.storeRecord (s : State) (h : HeaderWord) : State :=
  s.setHeader (fieldVer h) (fieldRev h) (fieldFlags h) (fieldSize h)

/-- The state after `DEC` (R106): on a failure the record is cleared and the failure raised; otherwise the record is
written and `RES <- R_HEADER`. -/
def State.afterDec (s : State) : State :=
  match s.decFailure with
  | some c => s.clearHeader.raise c
  | none => (s.storeRecord s.headerWord).setRes .rHeader

/-- `DEC` (R106). -/
def execDec (s : State) : Host.Outcome State Fault Refusal := .next s.afterDec

end Sys2Proof.Machine
end

