-- ==== Sys2Proof/Machine/HeaderWord.lean ====
section
/-! DEFINITION. The pseudo-instructions `FEED`, `PARSE` and `CHECK` as lists of commands (spec/30_encoding.md R74), and
the row `ID3V2_HEADER` of the opcode table: a header word presented as a whole is the invocation `PARSE` of its ten
bytes (R74, R134; log 1, DESIGN CHOICE). -/

namespace Sys2Proof.Machine

/-- `FEED b0, ..., b(n-1)` (R74). -/
def feedInstrs (bs : List Byte) : List Instr := bs.map Instr.push

/-- `PARSE b0, ..., b(n-1)`: `BEGIN`; `FEED`; `DEC` (R74). -/
def parseInstrs (bs : List Byte) : List Instr := .begin :: (feedInstrs bs ++ [.dec])

/-- `CHECK b0, ..., b(n-1)`: `BEGIN`; `FEED`; `VALID` (R74). -/
def checkInstrs (bs : List Byte) : List Instr := .begin :: (feedInstrs bs ++ [.valid])

/-- The state after `FEED`. -/
def State.afterFeed (s : State) : List Byte → State
  | [] => s
  | b :: bs => (s.afterPush b).afterFeed bs

/-- `ID3V2_HEADER` (R65, R94, R100 to R106): the ten bytes are captured in a new invocation and decoded. -/
def execId3v2Header (h : HeaderWord) (s : State) : Host.Outcome State Fault Refusal :=
  .next (s.afterBegin.afterFeed (headerToBytes h)).afterDec

end Sys2Proof.Machine
end

