-- ==== Sys2Proof/Machine/Dispatch.lean ====
section
/-! DEFINITION. `exec`: one arm for each row of spec/opcode_table.json, each one call of that row's meaning. -/

namespace Sys2Proof.Machine

def exec (i : Instr) (s : State) : Host.Outcome State Fault Refusal :=
  match i with
  | .begin => Sys2Proof.Machine.execBegin s
  | .push imm8 => Sys2Proof.Machine.execPush imm8 s
  | .valid => Sys2Proof.Machine.execValid s
  | .dec => Sys2Proof.Machine.execDec s
  | .id3v2Header h => Sys2Proof.Machine.execId3v2Header h s

end Sys2Proof.Machine
end

