-- ==== Sys2Proof/Machine/Port.lean ====
section
/-! DEFINITION. The block's inputs: taking the next event from the port, presenting an event, and the reset input
(spec/60_exceptions.md R139, spec/70_reset_and_hazards.md R150; log 2, log 3). -/

namespace Sys2Proof.Machine

/-- The effect of the reset input (R150): the reset values of every element, `BUF` not written. -/
def State.afterReset (s : State) : State := s.dropSequence.clearOutcome.clearHeader

/-- The next event that the block takes and the state with it taken from the queue; none while nothing waits. -/
def State.takeEvent (s : State) : Option (PortEvent × State) :=
  match s.port with
  | [] => none
  | e :: rest => some (e, { s with port := rest })

/-- The host offers an event ahead of everything that waits. -/
def State.offerFirst (s : State) (e : PortEvent) : State := { s with port := e :: s.port }

/-- The host offers a table word ahead of everything that waits; a number that is no word of the port changes
nothing, for the port cannot carry it (log 7). -/
def State.offerTableWord (s : State) (nbits w : Nat) : State :=
  match tableWord nbits w with
  | some p => s.offerFirst (.present p)
  | none => s

end Sys2Proof.Machine
end

