-- ==== Sys2Proof/Machine/Step.lean ====
section
/-! DEFINITION. One step: of the block on one input (spec/00_scope.md R16), and of the machine that takes its inputs
from the queue at its port (spec/20_memory.md R51, spec/70_reset_and_hazards.md R150, R151; log 2). -/

namespace Sys2Proof.Machine

/-- One event at the inputs: a presented word runs as the command it decodes to (R51, R62); the reset input has its
effect (R150). -/
def handleEvent (e : PortEvent) (s : State) : Host.Outcome State Fault Refusal :=
  match e with
  | .present w => exec (decode w) s
  | .reset => .next s.afterReset

/-- THE STEP FUNCTION OF R16: the block's state and one input, a command word or the reset input, to the block's next
state. The command stream is its input, not state; it is total on all 1024 command words; one step a command. -/
def blockStep (e : BlockInput) (b : BlockState) : Host.Outcome BlockState Fault Refusal :=
  match handleEvent e.toEvent { toBlockState := b, port := [] } with
  | .next t => .next t.toBlockState
  | .fault r => .fault r
  | .refused r => .refused r

/-- One step: the oldest event that waits is taken and handled; while nothing waits the block does nothing by itself
(R151; log 2). -/
def step (s : State) : Host.Outcome State Fault Refusal :=
  match s.takeEvent with
  | some (e, s') => handleEvent e s'
  | none => .next s

/-- The state with a word of the opcode table presented at the port, so that the very next step runs it (log 3). -/
def State.withFetchWord (s : State) (nbits w : Nat) : State := s.offerTableWord nbits w

end Sys2Proof.Machine
end

