-- ==== Sys2Proof/Machine/Assembler.lean ====
section
/-! DEFINITION. The written form of a command stream (spec/30_encoding.md R73) and the pseudo-instructions in it (R74):
one line of text to the command words it stands for, and a command to its line. What R73 leaves open of the lexical
form is log 12. -/

namespace Sys2Proof.Machine

/-- Why a line is not of the written form. -/
inductive AsmError where
  /-- The first word of the line is no mnemonic of R73 and no pseudo-instruction of R74. -/
  | unknownMnemonic
  /-- An operand is no byte: not a number of 0 to 255, not one printable character in quotes. -/
  | badByte
  /-- The operands are not what the mnemonic takes, or commas do not stand between them. -/
  | badOperands
  deriving DecidableEq, Repr

/-- The pieces of a line: a word (a mnemonic or a number), a quoted character, a comma. -/
inductive Token where
  | word (cs : List Char)
  | quoted (c : Char)
  | comma
  deriving DecidableEq, Repr

/-- Put the word that has been read, last character first, in front of the pieces that follow. -/
def flushWord (acc : List Char) (ts : List Token) : List Token :=
  match acc with
  | [] => ts
  | _ :: _ => .word acc.reverse :: ts

/-- Cut a line into its pieces; `;` outside quotes starts a comment that runs to the end of the line (R73). -/
def lexLine : List Char → List Char → List Token
  | acc, [] => flushWord acc []
  | acc, '\'' :: c :: '\'' :: cs => flushWord acc (.quoted c :: lexLine [] cs)
  | acc, c :: cs =>
    if c = ';' then flushWord acc []
    else if c = ',' then flushWord acc (.comma :: lexLine [] cs)
    else if c = ' ' ∨ c = '\t' then flushWord acc (lexLine [] cs)
    else lexLine (c :: acc) cs

/-- The value of a digit in a radix of at most 16; letters in either case (log 12). -/
def digitValue (radix : Nat) (c : Char) : Option Nat :=
  let n := c.toNat
  let v := if 48 ≤ n ∧ n ≤ 57 then some (n - 48)
    else if 65 ≤ n ∧ n ≤ 70 then some (n - 55)
    else if 97 ≤ n ∧ n ≤ 102 then some (n - 87)
    else none
  match v with
  | some d => if d < radix then some d else none
  | none => none

/-- The number that digits spell, most significant first, continuing from a number already read. -/
def numberFrom (radix : Nat) : Nat → List Char → Option Nat
  | n, [] => some n
  | n, c :: cs =>
    match digitValue radix c with
    | some d => numberFrom radix (n * radix + d) cs
    | none => none

/-- A byte from the number digits spell: at least one digit, at most 255. -/
def byteOfDigits (radix : Nat) (cs : List Char) : Except AsmError Byte :=
  match cs, numberFrom radix 0 cs with
  | _ :: _, some n => if n < 256 then .ok (BitVec.ofNat 8 n) else .error .badByte
  | _, _ => .error .badByte

/-- The printable ASCII characters, codes 32 to 126 (R73; log 12). -/
def isPrintable (c : Char) : Bool := 32 ≤ c.toNat && c.toNat ≤ 126

/-- A byte operand: `0x` and hexadecimal digits, decimal digits, or one printable ASCII character in quotes (R73). -/
def byteOperand : Token → Except AsmError Byte
  | .word ('0' :: 'x' :: ds) => byteOfDigits 16 ds
  | .word ds => byteOfDigits 10 ds
  | .quoted c => if isPrintable c then .ok (BitVec.ofNat 8 c.toNat) else .error .badByte
  | .comma => .error .badOperands

/-- Byte operands with commas between them, possibly none (R74: `n` may be 0). -/
def byteOperands : List Token → Except AsmError (List Byte)
  | [] => .ok []
  | [t] => (byteOperand t).map fun b => [b]
  | t :: .comma :: u :: ts =>
    match byteOperand t, byteOperands (u :: ts) with
    | .ok b, .ok bs => .ok (b :: bs)
    | .error e, _ => .error e
    | _, .error e => .error e
  | _ => .error .badOperands

/-- A command that takes no operand. -/
def noOperands (i : Instr) : List Token → Except AsmError (List Instr)
  | [] => .ok [i]
  | _ :: _ => .error .badOperands

/-- The commands that a mnemonic or pseudo-instruction with its operands stands for (R73, R74). -/
def instrsOfMnemonic (name : List Char) (ops : List Token) : Except AsmError (List Instr) :=
  if name = ['B', 'E', 'G', 'I', 'N'] then noOperands .begin ops
  else if name = ['V', 'A', 'L', 'I', 'D'] then noOperands .valid ops
  else if name = ['D', 'E', 'C'] then noOperands .dec ops
  else if name = ['P', 'U', 'S', 'H'] then
    match byteOperands ops with
    | .ok [b] => .ok [.push b]
    | .ok _ => .error .badOperands
    | .error e => .error e
  else if name = ['F', 'E', 'E', 'D'] then (byteOperands ops).map feedInstrs
  else if name = ['P', 'A', 'R', 'S', 'E'] then (byteOperands ops).map parseInstrs
  else if name = ['C', 'H', 'E', 'C', 'K'] then (byteOperands ops).map checkInstrs
  else .error .unknownMnemonic

/-- The commands one line of text stands for; none for an empty line or a comment (R73). -/
def assembleLine (line : List Char) : Except AsmError (List Instr) :=
  match lexLine [] line with
  | [] => .ok []
  | .word name :: ops => instrsOfMnemonic name ops
  | .quoted _ :: _ => .error .unknownMnemonic
  | .comma :: _ => .error .unknownMnemonic

/-- The words a list of lines stands for, in order (R73). -/
def assemble : List (List Char) → Except AsmError (List PortWord)
  | [] => .ok []
  | line :: lines =>
    match assembleLine line, assemble lines with
    | .ok is, .ok ws => .ok (is.map encode ++ ws)
    | .error e, _ => .error e
    | _, .error e => .error e

/-- One hexadecimal digit, capital. -/
def hexDigit (d : Nat) : Char := Char.ofNat (if d < 10 then 48 + d else 55 + d)

/-- A byte as `0xHH` (R73). -/
def hexByte (b : Byte) : List Char := ['0', 'x', hexDigit (b.toNat / 16), hexDigit (b.toNat % 16)]

/-- A byte as a decimal number (R73). -/
def decByte (b : Byte) : List Char := Nat.toDigits 10 b.toNat

/-- The text is a written form of the byte: `0xHH`, the decimal number, or one printable character in quotes, which
stands for its code (R73). -/
def IsByteText (text : List Char) (b : Byte) : Prop :=
  text = hexByte b ∨ text = decByte b ∨
    ∃ c : Char, isPrintable c = true ∧ text = ['\'', c, '\''] ∧ b = BitVec.ofNat 8 c.toNat

/-- Written operands on a line, commas between them. -/
def operandText : List (List Char) → List Char
  | [] => []
  | [t] => ' ' :: t
  | t :: u :: ts => ' ' :: t ++ [','] ++ operandText (u :: ts)

/-- The line of an instruction (R73); a header word is the line `PARSE` of its ten bytes (R74; log 1). -/
def lineOf : Instr → List Char
  | .begin => ['B', 'E', 'G', 'I', 'N']
  | .push b => ['P', 'U', 'S', 'H', ' '] ++ hexByte b
  | .valid => ['V', 'A', 'L', 'I', 'D']
  | .dec => ['D', 'E', 'C']
  | .id3v2Header h => ['P', 'A', 'R', 'S', 'E'] ++ operandText ((headerToBytes h).map hexByte)

end Sys2Proof.Machine
end

