-- ==== Sys2Proof/Safety.lean ====
section
/-! DEFINITION. What claims about the block are stated in: runs over events (spec/70_reset_and_hazards.md R159),
invocations (spec/00_scope.md R14), the invariants (spec/10_state.md R35), and sameness up to what cannot be observed
(R22, R36). -/

namespace Sys2Proof

/-! ## Invocations (R14) -/

/-- The instruction leaves the machine in the invocation it is in: every command but `BEGIN` (R14). -/
def Instr.keepsInvocation : Instr → Bool
  | .begin => false
  | .push _ => true
  | .valid => true
  | .dec => true
  | .id3v2Header _ => false

/-- The event leaves the machine in the invocation it is in: no reset, and no word that starts another (R14). -/
def PortEvent.keepsInvocation : PortEvent → Bool
  | .present w => Instr.keepsInvocation (decode w)
  | .reset => false

/-- The byte an event offers for capture, if it is a `PUSH`. -/
def PortEvent.pushedByte : PortEvent → Option Byte
  | .present w =>
    match decode w with
    | .begin => none
    | .push b => some b
    | .valid => none
    | .dec => none
    | .id3v2Header _ => none
  | .reset => none

/-- The bytes that the `PUSH` commands among the events offer, in order. -/
def pushedBytes (es : List PortEvent) : List Byte := es.filterMap PortEvent.pushedByte

end Sys2Proof

namespace Sys2Proof.Machine

/-! ## Runs -/

/-- A run: the events handled one after another; what waits at the port stays (R51 (a), R159). -/
def runEvents : List PortEvent → State → Host.Outcome State Fault Refusal
  | [], s => .next s
  | e :: es, s =>
    match handleEvent e s with
    | .next t => runEvents es t
    | .fault r => .fault r
    | .refused r => .refused r

/-- A run of the block: its inputs given to it one after another, each to completion (R16, R51 (a), R159). -/
def blockRun : List BlockInput → BlockState → Host.Outcome BlockState Fault Refusal
  | [], b => .next b
  | e :: es, b =>
    match blockStep e b with
    | .next c => blockRun es c
    | .fault r => .fault r
    | .refused r => .refused r

/-- The events that present instructions, in their order. -/
def presentAll (is : List Instr) : List PortEvent := is.map fun i => .present (encode i)

/-! ## The invariants I1 to I4, I7, I8 of R35 -/

/-- What holds after reset and after every command (R35). -/
structure State.Inv (s : State) : Prop where
  /-- The buffer's cells are in canonical form, all at addresses of the buffer (R41). -/
  bufCanonical : s.buf.wf = true
  /-- I1. -/
  lenBound : s.len.toNat ≤ Config.cap
  /-- Every byte below `LEN` was captured: no command ever reads a cell that nothing has written (R42). -/
  captured : ∀ a, a < s.len.toNat → (s.buf.readByte a).isSome = true
  /-- I2. -/
  absentEmpty : s.present = false → s.len = 0#5 ∧ (s.res = .rNone ∨ s.res = .eAbsent) ∧ s.hv = false
  /-- I3. -/
  noRecord : s.hv = false → s.ver = 0#8 ∧ s.rev = 0#8 ∧ s.flags = 0#8 ∧ s.size = 0#32
  /-- I4. -/
  record : s.hv = true →
    s.present = true ∧ Config.hdrLen ≤ s.len.toNat ∧ legal10 s.headerWord = true ∧
    s.ver = s.loadByte 3 ∧ s.rev = s.loadByte 4 ∧ s.flags = s.loadByte 5 ∧
    s.size = syncSafe (s.loadByte 6) (s.loadByte 7) (s.loadByte 8) (s.loadByte 9)
  /-- I7. -/
  headerOutcome : s.res = .rHeader → s.hv = true
  /-- I8. -/
  reservedBits : s.flags &&& 0x1F#8 = 0#8 ∧ s.size.toNat < 2 ^ 28 ∧ s.ver ≠ 0xFF#8 ∧ s.rev ≠ 0xFF#8 ∧
    s.res.code ≠ 7#3

/-- The outcome describes the bytes captured now, but for `E_SHORT`, which says only that a sequence exists (R155). -/
structure State.OutcomeCurrent (s : State) : Prop where
  whenTrue : s.res = .rTrue → s.inputFailure = none ∧ legal10 s.headerWord = true
  whenFalse : s.res = .rFalse → s.inputFailure = none ∧ legal10 s.headerWord = false
  whenHeader : s.res = .rHeader → s.inputFailure = none ∧ legal10 s.headerWord = true
  whenTag : s.res = .eTag → s.inputFailure = none ∧ legal10 s.headerWord = false
  whenAbsent : s.res = .eAbsent → s.present = false
  whenShort : s.res = .eShort → s.present = true

/-! ## What cannot be observed -/

/-- Two states that differ at most in cells of `BUF` at or above `LEN`, which nothing can observe (R22, R36). -/
def SameBelowLen (s t : State) : Prop :=
  t = { s with buf := t.buf } ∧ ∀ a, a < s.len.toNat → s.loadByte a = t.loadByte a

/-- The header record as the five registers hold it (R25 to R29). -/
structure Record where
  hv : Bool
  ver : Byte
  rev : Byte
  flags : Byte
  size : SizeWord
  deriving DecidableEq, Repr

/-- The header record of a state. -/
def State.headerRecord (s : State) : Record := ⟨s.hv, s.ver, s.rev, s.flags, s.size⟩

/-- The record of no header: all zero (R25). -/
def Record.empty : Record := ⟨false, 0#8, 0#8, 0#8, 0#32⟩

/-- The record that a legal header word decodes to (R100 to R104). -/
def recordOf (h : HeaderWord) : Record :=
  ⟨true, h.ver, h.rev, h.flags, syncSafe h.sz3 h.sz2 h.sz1 h.sz0⟩

end Sys2Proof.Machine
end

