-- ==== Sys2Proof/WellFormed.lean ====
section
/-! DEFINITION. Well-formed instructions: an instruction whose word is one of its row of spec/opcode_table.json.
Every command is (R62: there is no illegal command word). A header word is when it has the fixed bits of R65 and meets
R65's two side conditions. An ill-formed header word still decodes and runs: it is illegal, and the block reports that
(R68; log 11). -/

namespace Sys2Proof

/-- The fixed bits: `W & mask == match` (R65). -/
def headerFixedBitsOk (h : HeaderWord) : Bool := headerToBits h &&& headerMask == headerMatch

/-- First side condition: `W[55:48] != 0xFF` (R65). -/
def headerVerOk (h : HeaderWord) : Bool := (headerToBits h).extractLsb' 48 8 != 0xFF#8

/-- Second side condition: `W[47:40] != 0xFF` (R65). -/
def headerRevOk (h : HeaderWord) : Bool := (headerToBits h).extractLsb' 40 8 != 0xFF#8

/-- The instruction's word is a word of its row. -/
def Instr.wellFormed : Instr → Bool
  | .begin => true
  | .push _ => true
  | .valid => true
  | .dec => true
  | .id3v2Header h => headerFixedBitsOk h && headerVerOk h && headerRevOk h

end Sys2Proof
end

