-- ==== Sys2Proof/Certificates/Slice0/Obligations.lean ====
section
/-! DEFINITION. The statements for the provers. Each docstring names the rule of spec/ the statement formalises; where
a rule carries the spec's own mark [decision: D<n>] or [derived], or a statement rests on a log entry of the model, the
docstring says so. -/

open Sys2Proof Sys2Proof.Machine

/-! ## Encodings (spec/30_encoding.md) -/

/-- Words written out from the spec's encodings decode to what they stand for: R61's canonical words, words of
spec/95_test_vectors.md section 2.8, and one header word of R65's pattern. -/
def Obligations.WrittenOutWordsDecode : Prop :=
  decode (.command 0b0000000000#10) = .begin ∧
  decode (.command 0b0011111111#10) = .begin ∧
  decode (.command 0b0101001001#10) = .push 0x49#8 ∧
  decode (.command 0b0111111111#10) = .push 0xFF#8 ∧
  decode (.command 0b1000000000#10) = .valid ∧
  decode (.command 0b1011111111#10) = .valid ∧
  decode (.command 0b1100000000#10) = .dec ∧
  decode (.command 0b1111111111#10) = .dec ∧
  decode (.header 0b01001001010001000011001100000010000001011100000000000001000000100000001100000100#80) =
    .id3v2Header ⟨0x49#8, 0x44#8, 0x33#8, 0x02#8, 0x05#8, 0xC0#8, 0x01#8, 0x02#8, 0x03#8, 0x04#8⟩

/-- R61 (the spec's decision D5): the opcode map, by match and mask, and the canonical words. -/
def Obligations.OpcodeMapByMatchAndMask : Prop :=
  (∀ cw : CommandWord,
    (decode (.command cw) = .begin ↔ cw &&& 0x300#10 = 0x000#10) ∧
    (decode (.command cw) = .push (cw.extractLsb' 0 8) ↔ cw &&& 0x300#10 = 0x100#10) ∧
    (decode (.command cw) = .valid ↔ cw &&& 0x300#10 = 0x200#10) ∧
    (decode (.command cw) = .dec ↔ cw &&& 0x300#10 = 0x300#10)) ∧
  encode .begin = .command 0x000#10 ∧
  (∀ b : Byte, encode (.push b) = .command (0x100#10 + b.setWidth 10)) ∧
  encode .valid = .command 0x200#10 ∧
  encode .dec = .command 0x300#10

/-- Spec 30_encoding.md section 1 (R62): decoding is total, and `imm8` of every word but a `PUSH` is ignored. -/
def Obligations.ImmediateIgnoredExceptByPush : Prop :=
  (∀ cw : CommandWord,
    decode (.command cw) = .begin ∨ decode (.command cw) = .push (cw.extractLsb' 0 8) ∨
    decode (.command cw) = .valid ∨ decode (.command cw) = .dec) ∧
  (∀ (op : BitVec 2) (b c : Byte), op ≠ 0b01#2 → decode (.command (op ++ b)) = decode (.command (op ++ c)))

/-- R64 (the spec's decision D28): `W` is the ten bytes with `BUF[0]` most significant, byte `i` is
`W[79 - 8*i : 72 - 8*i]`, and the header word of a state is at the start of its captured bytes, nowhere else. -/
def Obligations.HeaderWordByteOrder : Prop :=
  (∀ s : State, headerToBits s.headerWord =
    s.loadByte 0 ++ s.loadByte 1 ++ s.loadByte 2 ++ s.loadByte 3 ++ s.loadByte 4 ++
    s.loadByte 5 ++ s.loadByte 6 ++ s.loadByte 7 ++ s.loadByte 8 ++ s.loadByte 9) ∧
  ∀ b0 b1 b2 b3 b4 b5 b6 b7 b8 b9 : Byte,
    encode (.id3v2Header ⟨b0, b1, b2, b3, b4, b5, b6, b7, b8, b9⟩) =
      .header (b0 ++ b1 ++ b2 ++ b3 ++ b4 ++ b5 ++ b6 ++ b7 ++ b8 ++ b9) ∧
    ∀ w : HeaderBits, w = b0 ++ b1 ++ b2 ++ b3 ++ b4 ++ b5 ++ b6 ++ b7 ++ b8 ++ b9 →
      w.extractLsb' 72 8 = b0 ∧ w.extractLsb' 64 8 = b1 ∧ w.extractLsb' 56 8 = b2 ∧ w.extractLsb' 48 8 = b3 ∧
      w.extractLsb' 40 8 = b4 ∧ w.extractLsb' 32 8 = b5 ∧ w.extractLsb' 24 8 = b6 ∧ w.extractLsb' 16 8 = b7 ∧
      w.extractLsb' 8 8 = b8 ∧ w.extractLsb' 0 8 = b9

/-- Decode and encode agree, for every instruction with every operand (R61, R64): as words of the port, and as bytes
(whose layout is log 7, a choice of the model). No bit of an encoding is dropped. -/
def Obligations.DecodeOfEncodeIsTheInstruction : Prop :=
  ∀ i : Instr, decode (encode i) = i ∧ decodeBytes (encodeBytes i) = .ok i

/-- The other direction: a header word, and a `PUSH` word, are the encoding of what they decode to; any other command
word is, once its ignored `imm8` is set to zero (R62). -/
def Obligations.EncodeOfDecodeIsCanonical : Prop :=
  (∀ w : HeaderBits, encode (decode (.header w)) = .header w) ∧
  (∀ b : Byte, encode (decode (.command (0b01#2 ++ b))) = .command (0b01#2 ++ b)) ∧
  (∀ (op : BitVec 2) (b : Byte), op ≠ 0b01#2 →
    encode (decode (.command (op ++ b))) = .command (op ++ 0x00#8))

/-- Exactly the byte lists that are no word of the port are rejected, each by its name: a wrong length (R71), or a bit
above `CW[9]` (R60). The byte layout is log 7, a choice of the model. -/
def Obligations.ByteListsRejectedByName : Prop :=
  ∀ bs : List Byte,
    (decodeBytes bs = .error (.noSuchLength bs.length) ↔ bs.length ≠ 2 ∧ bs.length ≠ 10) ∧
    (∀ hi : Byte, decodeBytes bs = .error (.bitsAboveCommandWord hi) ↔ ∃ lo, bs = [lo, hi] ∧ 4 ≤ hi.toNat) ∧
    ((∃ i, decodeBytes bs = .ok i) ↔ bs.length = 10 ∨ ∃ lo hi, bs = [lo, hi] ∧ hi.toNat < 4)

/-- R94: `Legal10` is the conjunction of the four conditions, and the same set of words as the match, mask and two side
conditions of R65. -/
def Obligations.LegalTenIsMatchMaskAndSideConditions : Prop :=
  ∀ h : HeaderWord,
    (legal10 h = true ↔
      sigOk h.sig0 h.sig1 h.sig2 = true ∧ verOk h.ver h.rev = true ∧ flagsOk h.flags = true ∧
      sizeOk h.sz3 h.sz2 h.sz1 h.sz0 = true) ∧
    (legal10 h = true ↔
      headerToBits h &&& 0xFFFFFF00001F80808080#80 = 0x49443300000000000000#80 ∧
      (headerToBits h).extractLsb' 48 8 ≠ 0xFF#8 ∧ (headerToBits h).extractLsb' 40 8 ≠ 0xFF#8)

/-- Spec 30_encoding.md section 3 (R69, marked [derived] by the spec): the number of legal header words. -/
def Obligations.NumberOfLegalHeaderWords : Prop :=
  Nat.card { w : HeaderBits // ∃ h, decode (.header w) = .id3v2Header h ∧ legal10 h = true } = 139640124211200

/-- Spec 30_encoding.md section 6 (R73; the lexical details are log 12, a choice of the model): the written line of a
command assembles to that command, a `PUSH` with its byte in each of R73's three written forms; the line of a header
word is `PARSE` of its ten bytes (log 1). -/
def Obligations.WrittenLinesAssembleBack : Prop :=
  assembleLine (lineOf .begin) = .ok [.begin] ∧
  (∀ b : Byte, assembleLine (lineOf (.push b)) = .ok [.push b]) ∧
  (∀ b : Byte, assembleLine (['P', 'U', 'S', 'H', ' '] ++ Nat.toDigits 10 b.toNat) = .ok [.push b]) ∧
  (∀ c : Char, 32 ≤ c.toNat → c.toNat ≤ 126 →
    assembleLine ['P', 'U', 'S', 'H', ' ', '\'', c, '\''] = .ok [.push (BitVec.ofNat 8 c.toNat)]) ∧
  assembleLine (lineOf .valid) = .ok [.valid] ∧
  assembleLine (lineOf .dec) = .ok [.dec] ∧
  (∀ h : HeaderWord, assembleLine (lineOf (.id3v2Header h)) = .ok (parseInstrs (headerToBytes h)))

/-- Spec 30_encoding.md section 6 (R73, R74): a line of a pseudo-instruction with any bytes as operands, none included
and each in any of R73's three written forms, assembles to its expansion. What R73 leaves open of the lexical form is
log 12, a choice of the model. -/
def Obligations.PseudoInstructionsExpand : Prop :=
  ∀ (texts : List (List Char)) (bs : List Byte), List.Forall₂ IsByteText texts bs →
    assembleLine (['F', 'E', 'E', 'D'] ++ operandText texts) = .ok (bs.map Instr.push) ∧
    assembleLine (['P', 'A', 'R', 'S', 'E'] ++ operandText texts) = .ok ([.begin] ++ bs.map Instr.push ++ [.dec]) ∧
    assembleLine (['C', 'H', 'E', 'C', 'K'] ++ operandText texts) = .ok ([.begin] ++ bs.map Instr.push ++ [.valid])

/-! ## The pure functions (spec/41_validate.md, spec/42_decode.md) -/

/-- R90: the signature check is exact equality with 0x49, 0x44, 0x33 in this order; lower case does not match. -/
def Obligations.SignatureCheckIsExact : Prop :=
  (∀ b0 b1 b2 : Byte, sigOk b0 b1 b2 = true ↔ b0 = 0x49#8 ∧ b1 = 0x44#8 ∧ b2 = 0x33#8) ∧
  sigOk 0x69#8 0x64#8 0x33#8 = false

/-- R91: version and revision pass exactly when each is below 0xFF, that is, not 0xFF. -/
def Obligations.VersionAndRevisionBelowFF : Prop :=
  ∀ b3 b4 : Byte,
    (verOk b3 b4 = true ↔ b3.toNat < 0xFF ∧ b4.toNat < 0xFF) ∧
    (verOk b3 b4 = true ↔ b3 ≠ 0xFF#8 ∧ b4 ≠ 0xFF#8)

/-- R92: the flags byte passes exactly when its low five bits are zero, and eight values do. -/
def Obligations.FlagsLegalityEightValues : Prop :=
  ∀ b5 : Byte,
    (flagsOk b5 = true ↔ b5 &&& 0xE0#8 = b5) ∧
    (flagsOk b5 = true ↔ b5 &&& 0x1F#8 = 0x00#8) ∧
    (flagsOk b5 = true ↔ b5 ∈ [0x00#8, 0x20#8, 0x40#8, 0x60#8, 0x80#8, 0xA0#8, 0xC0#8, 0xE0#8])

/-- R93: the size bytes pass exactly when each is below 0x80, that is, has its high bit clear. -/
def Obligations.SizeBytesBelowEighty : Prop :=
  ∀ b6 b7 b8 b9 : Byte,
    (sizeOk b6 b7 b8 b9 = true ↔ b6.toNat < 0x80 ∧ b7.toNat < 0x80 ∧ b8.toNat < 0x80 ∧ b9.toNat < 0x80) ∧
    (sizeOk b6 b7 b8 b9 = true ↔
      b6.getLsbD 7 = false ∧ b7.getLsbD 7 = false ∧ b8.getLsbD 7 = false ∧ b9.getLsbD 7 = false)

/-- R104: the size formula in both forms, exact in 32 bits, bounded by `128^4 - 1` on legal bytes, and the source's own
evaluations with the corrected one (90_conflicts.md C2). -/
def Obligations.SyncSafeFormulaIsExact : Prop :=
  (∀ b6 b7 b8 b9 : Byte, sizeOk b6 b7 b8 b9 = true →
    (syncSafe b6 b7 b8 b9).toNat = ((b6.toNat * 128 + b7.toNat) * 128 + b8.toNat) * 128 + b9.toNat ∧
    (syncSafe b6 b7 b8 b9).toNat = b6.toNat * 2097152 + b7.toNat * 16384 + b8.toNat * 128 + b9.toNat ∧
    (syncSafe b6 b7 b8 b9).toNat ≤ 268435455) ∧
  syncSafe 0x00#8 0x00#8 0x00#8 0x01#8 = 1#32 ∧
  syncSafe 0x00#8 0x00#8 0x01#8 0x00#8 = 128#32 ∧
  syncSafe 0x00#8 0x00#8 0x02#8 0x01#8 = 257#32 ∧
  syncSafe 0x7F#8 0x7F#8 0x7F#8 0x7F#8 = 0x0FFFFFFF#32

/-- Spec 42_decode.md section 3 (R105, marked [derived] by the spec): the arithmetic form and the bit form agree on
exactly the legal size bytes, and there the register's bits are the four digits side by side. -/
def Obligations.SyncSafeIsConcatenationExactlyOnLegalBytes : Prop :=
  ∀ b6 b7 b8 b9 : Byte,
    (syncSafe b6 b7 b8 b9 =
        (b6.extractLsb' 0 7 ++ b7.extractLsb' 0 7 ++ b8.extractLsb' 0 7 ++ b9.extractLsb' 0 7 : BitVec 28).setWidth 32 ↔
      sizeOk b6 b7 b8 b9 = true) ∧
    (sizeOk b6 b7 b8 b9 = true →
      (syncSafe b6 b7 b8 b9).extractLsb' 28 4 = 0#4 ∧
      (syncSafe b6 b7 b8 b9).extractLsb' 21 7 = b6.extractLsb' 0 7 ∧
      (syncSafe b6 b7 b8 b9).extractLsb' 14 7 = b7.extractLsb' 0 7 ∧
      (syncSafe b6 b7 b8 b9).extractLsb' 7 7 = b8.extractLsb' 0 7 ∧
      (syncSafe b6 b7 b8 b9).extractLsb' 0 7 = b9.extractLsb' 0 7)

/-- Spec 42_decode.md section 3 (R105, marked [derived] by the spec): the map from legal size bytes to sizes is
one-to-one and onto 0 to `2^28 - 1`. -/
def Obligations.SyncSafeIsOneToOneAndOnto : Prop :=
  (∀ b6 b7 b8 b9 c6 c7 c8 c9 : Byte, sizeOk b6 b7 b8 b9 = true → sizeOk c6 c7 c8 c9 = true →
    syncSafe b6 b7 b8 b9 = syncSafe c6 c7 c8 c9 → b6 = c6 ∧ b7 = c7 ∧ b8 = c8 ∧ b9 = c9) ∧
  (∀ n : Nat, n < 2 ^ 28 → ∃ b6 b7 b8 b9 : Byte,
    sizeOk b6 b7 b8 b9 = true ∧ (syncSafe b6 b7 b8 b9).toNat = n)

/-! ## Each instruction: its result and its frame -/

/-- R81 (the spec's decision D11): `BEGIN` completes in every state with a present, empty sequence, no outcome and no
header; no byte of `BUF` changes; a second `BEGIN` changes nothing; the state after it is the reset state but for
`PRESENT` (and `BUF` and the port, which neither writes); and fewer than 10 bytes later `VALID` and `DEC` report
`E_SHORT`. -/
def Obligations.BeginStartsAnEmptyInvocation : Prop :=
  ∀ s : State, ∃ t, exec .begin s = .next t ∧
    t.present = true ∧ t.len = 0#5 ∧ t.res = .rNone ∧ t.hv = false ∧
    t.ver = 0x00#8 ∧ t.rev = 0x00#8 ∧ t.flags = 0x00#8 ∧ t.size = 0x00000000#32 ∧
    t.unsync = false ∧ t.exthdr = false ∧ t.exper = false ∧ t.full = false ∧
    (∀ a, t.buf.readByte a = s.buf.readByte a) ∧ t.port = s.port ∧
    exec .begin t = .next t ∧
    { t with present := false, buf := State.reset.buf, port := State.reset.port } = State.reset ∧
    ∀ bs : List Byte, bs.length < 10 → ∃ u v w, runEvents (presentAll (feedInstrs bs)) t = .next u ∧
      exec .valid u = .next v ∧ v.res = .eShort ∧ exec .dec u = .next w ∧ w.res = .eShort

/-- R82 (the spec's decision D7): `PUSH` completes in every state. With an address to store to, which is `LEN` when
`PRESENT == 1` and `LEN < 20`, that one byte is stored and `LEN` goes up by one; otherwise nothing changes. -/
def Obligations.PushCapturesAtLenOrDoesNothing : Prop :=
  ∀ (b : Byte) (s : State),
    (s.present = true → s.len.toNat < 20 → s.pushAddress = some s.len.toNat) ∧
    (s.present = false ∨ 20 ≤ s.len.toNat → s.pushAddress = none) ∧
    (∀ a, s.pushAddress = some a → ∃ t, exec (.push b) s = .next t ∧
      t.buf.readByte a = some b ∧ (∀ c, c ≠ a → t.buf.readByte c = s.buf.readByte c) ∧
      t.len.toNat = s.len.toNat + 1 ∧ (t.full = true ↔ s.len.toNat = 19) ∧
      t.present = s.present ∧ t.res = s.res ∧ t.headerRecord = s.headerRecord ∧ t.port = s.port) ∧
    (s.pushAddress = none → exec (.push b) s = .next s)

/-- R95 (the spec's decision D12): `VALID` completes in every state, writes `RES` only, and answers by `PRESENT`, then
`LEN`, then the four conditions on `BUF[0]` to `BUF[9]`. -/
def Obligations.ValidReportsAndWritesResOnly : Prop :=
  ∀ s : State, ∃ t, exec .valid s = .next t ∧
    (s.present = false → t.res = .eAbsent) ∧
    (s.present = true → s.len.toNat < 10 → t.res = .eShort) ∧
    (s.present = true → 10 ≤ s.len.toNat →
      t.res = if legal10 ⟨s.loadByte 0, s.loadByte 1, s.loadByte 2, s.loadByte 3, s.loadByte 4, s.loadByte 5,
        s.loadByte 6, s.loadByte 7, s.loadByte 8, s.loadByte 9⟩ then .rTrue else .rFalse) ∧
    t.present = s.present ∧ t.len = s.len ∧ t.headerRecord = s.headerRecord ∧ t.port = s.port ∧
    (∀ a, t.buf.readByte a = s.buf.readByte a)

/-- R106 (the spec's decision D10): `DEC` completes in every state. It clears the record and reports the failure, or
writes the record of `BUF[3]` to `BUF[9]` and reports `R_HEADER`; it writes neither `PRESENT`, `LEN` nor `BUF`. -/
def Obligations.DecDecodesOrClears : Prop :=
  ∀ s : State, ∃ t, exec .dec s = .next t ∧
    (s.present = false → t.res = .eAbsent ∧ t.headerRecord = ⟨false, 0#8, 0#8, 0#8, 0#32⟩) ∧
    (s.present = true → s.len.toNat < 10 → t.res = .eShort ∧ t.headerRecord = ⟨false, 0#8, 0#8, 0#8, 0#32⟩) ∧
    (s.present = true → 10 ≤ s.len.toNat →
      if legal10 ⟨s.loadByte 0, s.loadByte 1, s.loadByte 2, s.loadByte 3, s.loadByte 4, s.loadByte 5,
        s.loadByte 6, s.loadByte 7, s.loadByte 8, s.loadByte 9⟩
      then t.res = .rHeader ∧ t.hv = true ∧ t.ver = s.loadByte 3 ∧ t.rev = s.loadByte 4 ∧ t.flags = s.loadByte 5 ∧
        t.size = syncSafe (s.loadByte 6) (s.loadByte 7) (s.loadByte 8) (s.loadByte 9)
      else t.res = .eTag ∧ t.headerRecord = ⟨false, 0#8, 0#8, 0#8, 0#32⟩) ∧
    t.present = s.present ∧ t.len = s.len ∧ t.port = s.port ∧
    (∀ a, t.buf.readByte a = s.buf.readByte a)

/-- The row `ID3V2_HEADER`, which is the model's choice (log 1): a header word presented whole completes in every state
as a new invocation that captures its ten bytes at addresses 0 to 9, leaves every other cell, and decodes them. -/
def Obligations.HeaderWordCapturesAndDecodes : Prop :=
  ∀ (h : HeaderWord) (s : State), ∃ t, exec (.id3v2Header h) s = .next t ∧
    t.present = true ∧ t.len.toNat = 10 ∧ t.port = s.port ∧
    (∀ a, a < 10 → t.buf.readByte a = (headerToBytes h)[a]?) ∧
    (∀ a, 10 ≤ a → t.buf.readByte a = s.buf.readByte a) ∧
    (legal10 h = true → t.res = .rHeader ∧ t.hv = true ∧ t.ver = h.ver ∧ t.rev = h.rev ∧ t.flags = h.flags ∧
      t.size = syncSafe h.sz3 h.sz2 h.sz1 h.sz0) ∧
    (legal10 h = false → t.res = .eTag ∧ t.headerRecord = ⟨false, 0#8, 0#8, 0#8, 0#32⟩)

/-- The row `ID3V2_HEADER` (log 1, the model's choice) adds no behaviour: it is the run of the twelve commands that
`PARSE` of its ten bytes stands for (R74). -/
def Obligations.HeaderWordIsParseOfItsBytes : Prop :=
  ∀ (h : HeaderWord) (s : State),
    exec (.id3v2Header h) s = runEvents (presentAll (parseInstrs (headerToBytes h))) s

/-! ## Decoding and validation, stated over commands -/

/-- R100, R101, R102: a successful `DEC` gives the major version, the revision and the flags byte as bytes 3, 4 and 5,
unchanged. -/
def Obligations.FieldsAreBytesThreeFourFive : Prop :=
  ∀ s t : State, exec .dec s = .next t → t.res = .rHeader →
    t.ver = s.loadByte 3 ∧ t.rev = s.loadByte 4 ∧ t.flags = s.loadByte 5 ∧
    ∀ h : HeaderWord, fieldVer h = h.ver ∧ fieldRev h = h.rev ∧ fieldFlags h = h.flags

/-- R103: the three flag outputs are bits 0x80, 0x40 and 0x20 of byte 5 when `DEC` succeeds, and all eight rows of the
decomposition table. -/
def Obligations.FlagDecomposition : Prop :=
  (∀ s t : State, exec .dec s = .next t → t.res = .rHeader →
    (t.outputs.unsync = true ↔ s.loadByte 5 &&& 0x80#8 ≠ 0#8) ∧
    (t.outputs.exthdr = true ↔ s.loadByte 5 &&& 0x40#8 ≠ 0#8) ∧
    (t.outputs.exper = true ↔ s.loadByte 5 &&& 0x20#8 ≠ 0#8)) ∧
  (∀ s : State,
    (s.flags = 0x00#8 → (s.unsync, s.exthdr, s.exper) = (false, false, false)) ∧
    (s.flags = 0x20#8 → (s.unsync, s.exthdr, s.exper) = (false, false, true)) ∧
    (s.flags = 0x40#8 → (s.unsync, s.exthdr, s.exper) = (false, true, false)) ∧
    (s.flags = 0x60#8 → (s.unsync, s.exthdr, s.exper) = (false, true, true)) ∧
    (s.flags = 0x80#8 → (s.unsync, s.exthdr, s.exper) = (true, false, false)) ∧
    (s.flags = 0xA0#8 → (s.unsync, s.exthdr, s.exper) = (true, false, true)) ∧
    (s.flags = 0xC0#8 → (s.unsync, s.exthdr, s.exper) = (true, true, false)) ∧
    (s.flags = 0xE0#8 → (s.unsync, s.exthdr, s.exper) = (true, true, true)))

/-- R107: no check relates the size to anything. Every size from 0 to `2^28 - 1`, those below the header's own length
included, is the size of some legal header word, and wherever such a word is captured `DEC` accepts it and reports the
size as it is. -/
def Obligations.EverySizeIsAcceptedAsItIs : Prop :=
  ∀ n : Nat, n < 2 ^ 28 →
    (∃ h : HeaderWord, legal10 h = true ∧ (fieldSize h).toNat = n) ∧
    ∀ s : State, s.present = true → 10 ≤ s.len.toNat → legal10 s.headerWord = true →
      (fieldSize s.headerWord).toNat = n →
      ∃ t, exec .dec s = .next t ∧ t.res = .rHeader ∧ t.size.toNat = n

/-- R96: (a) a low flag bit set, or (b) a wrong signature, makes `VALID` negative and `DEC` fail; (c) below 10 bytes
`VALID` never answers true or false. -/
def Obligations.ValidationProperties : Prop :=
  ∀ s : State, ∃ v d, exec .valid s = .next v ∧ exec .dec s = .next d ∧
    (s.present = true → 10 ≤ s.len.toNat → s.loadByte 5 &&& 0x1F#8 ≠ 0#8 → v.res = .rFalse ∧ d.res = .eTag) ∧
    (s.present = true → 10 ≤ s.len.toNat →
      ¬ (s.loadByte 0 = 0x49#8 ∧ s.loadByte 1 = 0x44#8 ∧ s.loadByte 2 = 0x33#8) →
      v.res = .rFalse ∧ d.res = .eTag) ∧
    (s.len.toNat < 10 →
      (s.present = true → v.res = .eShort) ∧ (s.present = false → v.res = .eAbsent) ∧
      v.res ≠ .rFalse ∧ v.res ≠ .rTrue)

/-- Spec 41_validate.md section 4 (R97, marked [derived] by the spec): `VALID` and `DEC` agree in every state. -/
def Obligations.ValidAndDecAgree : Prop :=
  ∀ s : State, ∃ v d, exec .valid s = .next v ∧ exec .dec s = .next d ∧
    (v.res = .rTrue ↔ d.res = .rHeader) ∧ (v.res = .rFalse ↔ d.res = .eTag) ∧
    (v.res = .eShort ↔ d.res = .eShort) ∧ (v.res = .eAbsent ↔ d.res = .eAbsent)

/-- R48: bytes 10 to 19 are captured like any other, and influence nothing: states with 10 bytes or more that agree on
the first ten give the same outcome and the same record. -/
def Obligations.BytesTenToNineteenInfluenceNothing : Prop :=
  (∀ (b : Byte) (s : State), s.present = true → 10 ≤ s.len.toNat → s.len.toNat < 20 →
    ∃ t, exec (.push b) s = .next t ∧ t.loadByte s.len.toNat = b ∧ t.len.toNat = s.len.toNat + 1) ∧
  (∀ s s' v v' d d' : State, s.present = true → s'.present = true → 10 ≤ s.len.toNat → 10 ≤ s'.len.toNat →
    (∀ a, a < 10 → s.loadByte a = s'.loadByte a) →
    exec .valid s = .next v → exec .valid s' = .next v' → exec .dec s = .next d → exec .dec s' = .next d' →
    v.res = v'.res ∧ d.res = d'.res ∧ d.headerRecord = d'.headerRecord)

/-- R109: decoding twice gives the same, with any commands of the invocation between, once 10 bytes were held at the
first or fewer still are at the second; the outcome is a function of `PRESENT`, of whether `LEN >= 10` and of
`BUF[0..9]`; and two invocations fed the same bytes give the same outcome. -/
def Obligations.DecodingIsIdempotent : Prop :=
  (∀ (es : List PortEvent) (s : State), (∀ e ∈ es, e.keepsInvocation = true) →
    ∃ t u v, exec .dec s = .next t ∧ runEvents es t = .next u ∧ exec .dec u = .next v ∧
      (10 ≤ s.len.toNat ∨ u.len.toNat < 10 → v.res = t.res ∧ v.headerRecord = t.headerRecord)) ∧
  (∀ s s' t t' : State, s.present = s'.present → (10 ≤ s.len.toNat ↔ 10 ≤ s'.len.toNat) →
    (∀ a, a < 10 → s.loadByte a = s'.loadByte a) → exec .dec s = .next t → exec .dec s' = .next t' →
    t.res = t'.res ∧ t.headerRecord = t'.headerRecord) ∧
  (∀ (bs : List Byte) (s s' t t' : State), runEvents (presentAll (parseInstrs bs)) s = .next t →
    runEvents (presentAll (parseInstrs bs)) s' = .next t' →
    t.res = t'.res ∧ t.headerRecord = t'.headerRecord)

/-! ## Failures (spec/60_exceptions.md) -/

/-- R121, R123: which failure is reported, exactly when: absent first, then too small, then an illegal header word,
which `DEC` alone reports; `BEGIN` and `PUSH` raise nothing; the codes and the kinds. R121 carries the spec's decision
mark D9. -/
def Obligations.FailureCausesAreExact : Prop :=
  (∀ s v d : State, exec .valid s = .next v → exec .dec s = .next d →
    (v.res = .eAbsent ↔ s.present = false) ∧ (d.res = .eAbsent ↔ s.present = false) ∧
    (v.res = .eShort ↔ s.present = true ∧ s.len.toNat < 10) ∧
    (d.res = .eShort ↔ s.present = true ∧ s.len.toNat < 10) ∧
    v.res ≠ .eTag ∧
    (d.res = .eTag ↔ s.present = true ∧ 10 ≤ s.len.toNat ∧ legal10 s.headerWord = false)) ∧
  (∀ (b : Byte) (s t u : State), exec .begin s = .next t → exec (.push b) s = .next u →
    t.res.isFailure = false ∧ u.res = s.res) ∧
  (∀ r : Res, r.isFailure = false ↔ r.code.toNat < 4) ∧
  (Res.eAbsent.code, Res.eShort.code, Res.eTag.code) = (4#3, 5#3, 6#3) ∧
  (FailureCause.absent.kind, FailureCause.short.kind, FailureCause.tag.kind) =
    (FailureKind.invalidInput, FailureKind.invalidInput, FailureKind.invalidTag)

/-- R124 (the spec's decision D9): entering a failure writes `RES` and nothing else; a `VALID` that raises has written
`RES` only, and a `DEC` that raises has cleared the record in the same step. -/
def Obligations.RaisingAFailureWritesTheCodeOnly : Prop :=
  (∀ (s : State) (c : FailureCause), s.raise c = { s with res := c.outcome }) ∧
  (FailureCause.absent.outcome, FailureCause.short.outcome, FailureCause.tag.outcome) =
    (Res.eAbsent, Res.eShort, Res.eTag) ∧
  (∀ s t : State, exec .valid s = .next t → t.res.isFailure = true → t = { s with res := t.res }) ∧
  (∀ s t : State, exec .dec s = .next t → t.res.isFailure = true →
    t = { s with res := t.res, hv := false, ver := 0#8, rev := 0#8, flags := 0#8, size := 0#32 })

/-- R126 (the spec's decision D9): a failure is not sticky and a retry changes nothing. Every command is accepted in
every state; whatever outcome stands, the next `VALID` or `DEC` overwrites it with its own; `BEGIN` forgets the outcome and `PUSH` leaves it; repeating `VALID` or `DEC` gives the same; while the
sequence is absent no command but `BEGIN` changes the report; after `E_TAG` no command of the invocation leads `DEC` to
another outcome; after `E_SHORT` further bytes may. -/
def Obligations.FailureIsNotStickyAndRetryIsVain : Prop :=
  (∀ (cw : CommandWord) (s : State), ∃ t, exec (decode (.command cw)) s = .next t) ∧
  (∀ (s : State) (r : Res), ∃ v v' d d',
    exec .valid s = .next v ∧ exec .valid { s with res := r } = .next v' ∧ v'.res = v.res ∧
    exec .dec s = .next d ∧ exec .dec { s with res := r } = .next d' ∧ d'.res = d.res) ∧
  (∀ (b : Byte) (s t u : State), exec .begin s = .next t → exec (.push b) s = .next u →
    t.res = .rNone ∧ u.res = s.res) ∧
  (∀ s t u : State, exec .valid s = .next t → exec .valid t = .next u → u.res = t.res) ∧
  (∀ s t u : State, exec .dec s = .next t → exec .dec t = .next u → u.res = t.res) ∧
  (∀ (es : List PortEvent) (s u v d : State), s.present = false → (∀ e ∈ es, e.keepsInvocation = true) →
    runEvents es s = .next u → exec .valid u = .next v → exec .dec u = .next d →
    v.res = .eAbsent ∧ d.res = .eAbsent) ∧
  (∀ (es : List PortEvent) (s t u d : State), exec .dec s = .next t → t.res = .eTag →
    (∀ e ∈ es, e.keepsInvocation = true) → runEvents es t = .next u → exec .dec u = .next d → d.res = .eTag) ∧
  (∃ (bs : List Byte) (s t u d : State), exec .dec s = .next t ∧ t.res = .eShort ∧
    runEvents (presentAll (feedInstrs bs)) t = .next u ∧ exec .dec u = .next d ∧ d.res = .rHeader)

/-- R129: a negative answer is not a failure: on the same ten or more bytes with an illegal header word `VALID` answers
`R_FALSE`, no failure, and `DEC` fails with `E_TAG`. -/
def Obligations.NegativeAnswerIsNoFailure : Prop :=
  ∀ s : State, s.present = true → 10 ≤ s.len.toNat → legal10 s.headerWord = false →
    ∃ v d, exec .valid s = .next v ∧ exec .dec s = .next d ∧
      v.res = .rFalse ∧ v.res.isFailure = false ∧ d.res = .eTag ∧ d.res.isFailure = true

/-! ## Steps, reset and outputs -/

/-- A step runs the decoded word. The oldest word at the port runs as the instruction it decodes to; the reset input
has its effect; with nothing waiting nothing happens (R51, R62, R151; the queue is log 2). A table word presented for
the next step runs exactly as the instruction the decoder reads from it (log 3). -/
def Obligations.StepRunsTheDecodedWord : Prop :=
  (∀ (s : State) (w : PortWord) (rest : List PortEvent), s.port = .present w :: rest →
    step s = exec (decode w) { s with port := rest }) ∧
  (∀ (s : State) (rest : List PortEvent), s.port = .reset :: rest →
    step s = .next { s with port := rest }.afterReset) ∧
  (∀ s : State, s.port = [] → step s = .next s) ∧
  (∀ (s : State) (nbits w : Nat) (i : Instr), decodeTableWord nbits w = some i →
    step (s.withFetchWord nbits w) = exec i s)

/-- Spec 60_exceptions.md section 2 (R128, marked [derived] by the spec): every command has a next state in every
state, and so has every step. -/
def Obligations.EveryStepHasANextState : Prop :=
  (∀ (i : Instr) (s : State), ∃ t, exec i s = .next t) ∧ (∀ s : State, ∃ t, step s = .next t)

/-- R150 (the spec's decision D17): the reset input, in every state: every element at its reset value, `BUF` not
written; so the state after it is one state but for `BUF` (and the model's queue, of which this statement says nothing),
and it is the one event that makes the sequence absent. -/
def Obligations.ResetEventGivesTheResetState : Prop :=
  (∀ s : State, ∃ t, handleEvent .reset s = .next t ∧
    t.present = false ∧ t.len = 0#5 ∧ t.res = .rNone ∧ t.hv = false ∧
    t.ver = 0x00#8 ∧ t.rev = 0x00#8 ∧ t.flags = 0x00#8 ∧ t.size = 0x00000000#32 ∧
    t.unsync = false ∧ t.exthdr = false ∧ t.exper = false ∧ t.full = false ∧
    (∀ a, t.buf.readByte a = s.buf.readByte a) ∧
    t = { State.reset with buf := s.buf, port := t.port }) ∧
  (∀ (e : PortEvent) (s t : State), handleEvent e s = .next t → s.present = true → t.present = false → e = .reset)

/-- Spec 10_state.md section 10 (R20 to R31): the values after reset. That nothing waits at the port, and that no cell
is listed, are the model's choices (log 2, log 4). -/
def Obligations.ResetStateHoldsTheResetValues : Prop :=
  State.reset.present = false ∧ State.reset.len = 0#5 ∧ State.reset.res.code = 0#3 ∧ State.reset.hv = false ∧
  State.reset.ver = 0x00#8 ∧ State.reset.rev = 0x00#8 ∧ State.reset.flags = 0x00#8 ∧
  State.reset.size = 0x00000000#32 ∧ State.reset.unsync = false ∧ State.reset.exthdr = false ∧
  State.reset.exper = false ∧ State.reset.full = false

/-- R30: the three flag outputs are functions of `FLAGS`, bits 0x80, 0x40 and 0x20, and change only when it does; only
`DEC`, `BEGIN`, reset (and the header word, log 1) set them; they are 0 after reset; with `HV == 0` all three are 0, in
every state that meets the invariant. -/
def Obligations.FlagOutputsAreViewsOfFlags : Prop :=
  (∀ s : State,
    (s.outputs.unsync = true ↔ s.flags &&& 0x80#8 ≠ 0#8) ∧
    (s.outputs.exthdr = true ↔ s.flags &&& 0x40#8 ≠ 0#8) ∧
    (s.outputs.exper = true ↔ s.flags &&& 0x20#8 ≠ 0#8)) ∧
  (∀ (b : Byte) (s t u : State), exec (.push b) s = .next t → exec .valid s = .next u →
    t.flags = s.flags ∧ u.flags = s.flags) ∧
  (State.reset.unsync = false ∧ State.reset.exthdr = false ∧ State.reset.exper = false) ∧
  (∀ s : State, s.Inv → s.hv = false → s.unsync = false ∧ s.exthdr = false ∧ s.exper = false)

/-- R31 (the spec's decision D7): `FULL` is `LEN == 20`, 0 after reset. -/
def Obligations.FullIsLenTwenty : Prop :=
  (∀ s : State, s.outputs.full = true ↔ s.len.toNat = 20) ∧ State.reset.outputs.full = false

/-- A run of the machine over what waits at the port is the run of those events in their order, commands one at a time
and each to completion (R51 (a), R159). The queue is log 2, a choice of the model. -/
def Obligations.QueueIsHandledInOrder : Prop :=
  ∀ (es rest : List PortEvent) (s : State), s.port = es ++ rest →
    Host.Core.run Sys2Proof.core es.length s = runEvents es { s with port := rest }

/-! ## Invariants (spec/10_state.md section 7) -/

/-- The invariant holds at reset (R35, marked [derived] by the spec; that nothing is listed at reset is log 4). -/
def Obligations.InvariantHoldsAtReset : Prop := State.reset.Inv ∧ State.reset.OutcomeCurrent

/-- I1 to I4, I7, I8 of R35 (marked [derived] by the spec), with the canonical form of the buffer: every step keeps
them, whatever waits at the port. -/
def Obligations.InvariantKeptByEveryStep : Prop :=
  ∀ s t : State, s.Inv → step s = .next t → t.Inv

/-- R155 (marked [derived] by the spec): apart from `E_SHORT` no outcome goes stale. In every state the invariant admits,
a step keeps the outcome true of the bytes captured now. -/
def Obligations.OutcomeNeverGoesStaleButShort : Prop :=
  ∀ s t : State, s.Inv → s.OutcomeCurrent → step s = .next t → t.OutcomeCurrent

/-- I5 of R35 (marked [derived] by the spec): within one invocation a captured byte never changes, in any run, and
`LEN` never goes down. -/
def Obligations.CapturedBytesNeverChange : Prop :=
  ∀ (es : List PortEvent) (s : State), (∀ e ∈ es, e.keepsInvocation = true) →
    ∃ t, runEvents es s = .next t ∧ t.present = s.present ∧ s.len.toNat ≤ t.len.toNat ∧
      ∀ a, a < s.len.toNat → t.buf.readByte a = s.buf.readByte a

/-- I6 of R35 (marked [derived] by the spec): within one invocation a header record, once there, stays as it is in any
run; every later `DEC` succeeds with the same values and every later `VALID` answers `R_TRUE`. -/
def Obligations.HeaderRecordNeverChanges : Prop :=
  ∀ (es : List PortEvent) (s : State), s.Inv → s.hv = true → (∀ e ∈ es, e.keepsInvocation = true) →
    ∃ t d v, runEvents es s = .next t ∧ t.headerRecord = s.headerRecord ∧
      exec .dec t = .next d ∧ d.res = .rHeader ∧ d.headerRecord = s.headerRecord ∧
      exec .valid t = .next v ∧ v.res = .rTrue ∧ v.headerRecord = s.headerRecord

/-! ## Whole-machine rules -/

/-- Spec 20_memory.md section 1 (R42, marked [derived] by the spec): the only stores. A byte of the buffer changes only
by a `PUSH` at `LEN` below 20 with a sequence present, or (log 1) by a header word at 0 to 9. -/
def Obligations.OnlyCaptureWritesTheBuffer : Prop :=
  ∀ (i : Instr) (s t : State) (a : Nat), exec i s = .next t → t.buf.readByte a ≠ s.buf.readByte a →
    (∃ b, i = .push b ∧ s.present = true ∧ a = s.len.toNat ∧ a < 20 ∧ t.buf.readByte a = some b) ∨
    (∃ h, i = .id3v2Header h ∧ a < 10 ∧ t.buf.readByte a = (headerToBytes h)[a]?)

/-- Spec 40_capture.md section 3 (R83 (b), marked [derived] by the spec): `LEN` decreases only by `BEGIN` or reset, or
(log 1) by a header word, which opens with `BEGIN`. -/
def Obligations.LenDecreasesOnlyByBeginOrReset : Prop :=
  ∀ (s t : State) (e : PortEvent), handleEvent e s = .next t → t.len.toNat < s.len.toNat →
    e = .reset ∨ ∃ w, e = .present w ∧ (decode w = .begin ∨ ∃ h, decode w = .id3v2Header h)

/-- Spec 10_state.md section 4 (R25): `HV` becomes 1 by a successful `DEC` and by nothing else (a header word, log 1,
ends in one); `VALID` and `PUSH` leave it and the record alone; `BEGIN`, a failing `DEC` and reset clear it. -/
def Obligations.RecordIsWrittenByDecOnly : Prop :=
  (∀ (i : Instr) (s t : State), exec i s = .next t → s.hv = false → t.hv = true →
    t.res = .rHeader ∧ (i = .dec ∨ ∃ h, i = .id3v2Header h)) ∧
  (∀ (b : Byte) (s t u : State), exec .valid s = .next t → exec (.push b) s = .next u →
    t.headerRecord = s.headerRecord ∧ u.headerRecord = s.headerRecord) ∧
  (∀ s t d : State, exec .begin s = .next t → exec .dec s = .next d →
    t.headerRecord = ⟨false, 0#8, 0#8, 0#8, 0#32⟩ ∧
    (d.res ≠ .rHeader → d.headerRecord = ⟨false, 0#8, 0#8, 0#8, 0#32⟩) ∧
    s.afterReset.headerRecord = ⟨false, 0#8, 0#8, 0#8, 0#32⟩)

/-- Spec 10_state.md section 3 (R24): where each outcome comes from, and that code 7 never comes. That `R_HEADER` and
`E_TAG` come from a header word too, and not from `DEC` only as R24 has it, is log 1, the model's choice. -/
def Obligations.OutcomesComeFromTheirCommands : Prop :=
  (∀ (i : Instr) (s t : State), exec i s = .next t → t.res ≠ s.res →
    (t.res = .rNone → i = .begin) ∧ (t.res = .rTrue → i = .valid) ∧ (t.res = .rFalse → i = .valid) ∧
    (t.res = .rHeader → i = .dec ∨ ∃ h, i = .id3v2Header h) ∧
    (t.res = .eTag → i = .dec ∨ ∃ h, i = .id3v2Header h) ∧
    (t.res = .eAbsent → i = .valid ∨ i = .dec) ∧ (t.res = .eShort → i = .valid ∨ i = .dec)) ∧
  (∀ r : Res, r.code ≠ 7#3)

/-- Spec 40_capture.md section 3 (R83 (a), marked [derived] by the spec): after `BEGIN` and any commands of the
invocation, the buffer holds the first 20 pushed bytes in stream order, whatever `VALID` and `DEC` are interleaved. -/
def Obligations.CaptureHoldsTheFirstTwentyBytes : Prop :=
  ∀ (es : List PortEvent) (s : State), (∀ e ∈ es, e.keepsInvocation = true) →
    ∃ t, runEvents (.present (encode .begin) :: es) s = .next t ∧
      t.present = true ∧ t.len.toNat = min (pushedBytes es).length 20 ∧
      ∀ i, i < min (pushedBytes es).length 20 → t.buf.readByte i = (pushedBytes es)[i]?

/-- Spec 10_state.md sections 2 and 8 (R22, R36): cells at or above `LEN` are never observed. States that differ at
most there stay so in every run, and show the host the same outputs. -/
def Obligations.CellsAboveLenAreUnobservable : Prop :=
  ∀ (es : List PortEvent) (s s' : State), SameBelowLen s s' →
    ∃ t t', runEvents es s = .next t ∧ runEvents es s' = .next t' ∧
      SameBelowLen t t' ∧ t.outputs = t'.outputs

/-- Spec 40_capture.md section 3 and 20_memory.md section 5 (R83 (c), R51 (c)): invocations are independent. Whatever
came before `BEGIN`, the same events after it show the host the same outputs. The outputs are R37's: each register as
it is, `RES` by its code of R24, and the four derived views. -/
def Obligations.InvocationsAreIndependent : Prop :=
  (∀ (es : List PortEvent) (s s' : State),
    ∃ t t', runEvents (.present (encode .begin) :: es) s = .next t ∧
      runEvents (.present (encode .begin) :: es) s' = .next t' ∧ t.outputs = t'.outputs) ∧
  (∀ s : State,
    s.outputs.present = s.present ∧ s.outputs.len = s.len ∧ s.outputs.res = s.res.code ∧ s.outputs.hv = s.hv ∧
    s.outputs.ver = s.ver ∧ s.outputs.rev = s.rev ∧ s.outputs.flags = s.flags ∧ s.outputs.size = s.size ∧
    (s.outputs.full = true ↔ s.len.toNat = 20) ∧ s.outputs.unsync = s.flags.getLsbD 7 ∧
    s.outputs.exthdr = s.flags.getLsbD 6 ∧ s.outputs.exper = s.flags.getLsbD 5) ∧
  ([Res.rNone, .rTrue, .rFalse, .rHeader, .eAbsent, .eShort, .eTag].map Res.code =
    [0#3, 1#3, 2#3, 3#3, 4#3, 5#3, 6#3])

/-- One invocation from end to end (R74's `PARSE`, with R82, R83 and R106): from any state, `BEGIN`, any bytes in
stream order and `DEC` report `E_SHORT` below 10 bytes; otherwise the header word is the first ten bytes, and the
outcome and the record are those of that word. -/
def Obligations.ParseDecodesTheFirstTenBytes : Prop :=
  ∀ (bs : List Byte) (s : State), ∃ t, runEvents (presentAll (parseInstrs bs)) s = .next t ∧
    t.present = true ∧ t.len.toNat = min bs.length 20 ∧
    (bs.length < 10 → t.res = .eShort ∧ t.headerRecord = ⟨false, 0#8, 0#8, 0#8, 0#32⟩) ∧
    (∀ (h : HeaderWord) (rest : List Byte), bs = headerToBytes h ++ rest →
      (legal10 h = true → t.res = .rHeader ∧
        t.headerRecord = ⟨true, h.ver, h.rev, h.flags, syncSafe h.sz3 h.sz2 h.sz1 h.sz0⟩) ∧
      (legal10 h = false → t.res = .eTag ∧ t.headerRecord = ⟨false, 0#8, 0#8, 0#8, 0#32⟩))

/-- One call of `isValidHeader` from end to end (R74's `CHECK`, with R82, R83 and R95): from any state, `BEGIN`, any
bytes in stream order and `VALID` answer by the first ten bytes, and no header record exists. -/
def Obligations.CheckAnswersByTheFirstTenBytes : Prop :=
  ∀ (bs : List Byte) (s : State), ∃ t, runEvents (presentAll (checkInstrs bs)) s = .next t ∧
    t.headerRecord = ⟨false, 0#8, 0#8, 0#8, 0#32⟩ ∧
    (bs.length < 10 → t.res = .eShort) ∧
    (∀ (h : HeaderWord) (rest : List Byte), bs = headerToBytes h ++ rest →
      t.res = if legal10 h then .rTrue else .rFalse)

/-- A header word is well-formed exactly when it is legal. That well-formedness checks R65's pattern, by the fixed bits
and the two side conditions, is log 11 (DEDUCED), the model's reading of spec 30_encoding.md section 2; R94 knows no
well-formedness. -/
def Obligations.WellFormedHeaderWordsAreTheLegalOnes : Prop :=
  ∀ h : HeaderWord, legal10 h = true ↔ (Instr.id3v2Header h).wellFormed = true

/-- No event, the reset input included, touches what waits at the port, in any run. The queue is log 2 (DESIGN CHOICE),
and that reset leaves it is log 5 (DEDUCED): the model's reading, no rule of the spec. -/
def Obligations.EventsLeaveWhatWaitsAtThePort : Prop :=
  ∀ (es : List PortEvent) (s : State), ∃ t, runEvents es s = .next t ∧ t.port = s.port

/-! ## The step function of R16 -/

/-- Spec 00_scope.md section 8 and 20_memory.md section 5 (R16 items 1 to 3, R51 (a)): the step function takes the
block's state and one input, a command word or the reset input; it is total on all 1024 command words; it is what a step
of the machine does with the input at the head of its queue, whatever waits behind; and as many steps of the machine as
inputs wait first are the run of the block on those inputs, one step an input. The queue, which a step neither reads nor
writes past the input it takes, is log 2, the model's choice. -/
def Obligations.BlockStepsOnOneCommandOrReset : Prop :=
  (∀ (e : BlockInput) (b : BlockState), ∃ c, blockStep e b = .next c ∧
    ∀ q : List PortEvent,
      handleEvent e.toEvent { toBlockState := b, port := q } = .next { toBlockState := c, port := q } ∧
      step { toBlockState := b, port := e.toEvent :: q } = .next { toBlockState := c, port := q }) ∧
  (∀ (es : List BlockInput) (b : BlockState), ∃ c, blockRun es b = .next c ∧
    ∀ q : List PortEvent,
      Host.Core.run Sys2Proof.core es.length { toBlockState := b, port := es.map BlockInput.toEvent ++ q } =
        .next { toBlockState := c, port := q })

/-- The row `ID3V2_HEADER` (log 1, the model's choice) adds no step to the block: what a header word presented whole
does is the run of twelve steps of the step function of R16, on the canonical command words of `PARSE` of its bytes. -/
def Obligations.HeaderWordIsTwelveStepsOfTheBlock : Prop :=
  ∀ (h : HeaderWord) (b : BlockState), ∃ c,
    blockRun ([.command 0x000#10] ++ (headerToBytes h).map (fun y => .command (0x100#10 + y.setWidth 10)) ++
      [.command 0x300#10]) b = .next c ∧
    ∀ q : List PortEvent,
      exec (.id3v2Header h) { toBlockState := b, port := q } = .next { toBlockState := c, port := q }
end

