-- ==== Sys2Proof/Laws/Assembler.lean ====
section
/-! SUPPORT. How a line of text is cut into pieces (spec/30_encoding.md R73), said once: ordinary characters make a
word, and a written byte is one piece that reads as that byte, whichever of the three forms it has. -/

namespace Sys2Proof.Machine

/-- A character that neither ends a word nor starts something else. -/
def isPlainChar (c : Char) : Bool := c != ';' && c != ',' && c != ' ' && c != '\t' && c != '\''

theorem lexLine_plain {c : Char} (hc : isPlainChar c = true) (acc cs : List Char) :
    lexLine acc (c :: cs) = lexLine (c :: acc) cs := by
  simp only [isPlainChar, Bool.and_eq_true, bne_iff_ne, ne_eq] at hc
  simp [lexLine, hc]

theorem lexLine_word {w : List Char} (hw : w.all isPlainChar = true) (acc r : List Char) :
    lexLine acc (w ++ r) = lexLine (w.reverse ++ acc) r := by
  induction w generalizing acc with
  | nil => rfl
  | cons c w ih =>
    simp only [List.all_cons, Bool.and_eq_true] at hw
    rw [List.cons_append, lexLine_plain hw.1, ih hw.2]
    simp

theorem lexLine_comma (acc r : List Char) : lexLine acc (',' :: r) = flushWord acc (.comma :: lexLine [] r) := by
  simp [lexLine]

theorem lexLine_blank (acc r : List Char) : lexLine acc (' ' :: r) = flushWord acc (lexLine [] r) := by
  simp [lexLine]

theorem lexLine_quoted (c : Char) (r : List Char) :
    lexLine [] ('\'' :: c :: '\'' :: r) = .quoted c :: lexLine [] r := by
  simp [lexLine, flushWord]

theorem flushWord_reverse {w : List Char} (hw : w ≠ []) (ts : List Token) : flushWord w.reverse ts = .word w :: ts := by
  cases h : w.reverse with
  | nil => simp_all
  | cons c cs => simp [flushWord, ← h]

theorem hexByte_plain : ∀ b : Byte, (hexByte b).all isPlainChar = true := by decide
theorem decByte_plain : ∀ b : Byte, (decByte b).all isPlainChar = true ∧ decByte b ≠ [] := by decide
theorem byteOperand_hexByte : ∀ b : Byte, byteOperand (.word (hexByte b)) = .ok b := by decide
theorem byteOperand_decByte : ∀ b : Byte, byteOperand (.word (decByte b)) = .ok b := by decide

/-- A plain word at the end of a line, or before a comma, is one piece. -/
theorem lexLine_word_alone {w : List Char} (hw : w.all isPlainChar = true) (hn : w ≠ []) :
    lexLine [] w = [.word w] ∧ ∀ r, lexLine [] (w ++ ',' :: r) = .word w :: .comma :: lexLine [] r := by
  refine ⟨?_, fun r => ?_⟩
  · simpa [lexLine, flushWord_reverse hn] using lexLine_word hw [] []
  · rw [lexLine_word hw, lexLine_comma, List.append_nil, flushWord_reverse hn]

/-- A written byte is one piece, and it reads as the byte (R73). -/
theorem IsByteText.reads {t : List Char} {b : Byte} (h : IsByteText t b) :
    ∃ tok, byteOperand tok = .ok b ∧ lexLine [] t = [tok] ∧
      ∀ r, lexLine [] (t ++ ',' :: r) = tok :: .comma :: lexLine [] r := by
  obtain rfl | rfl | ⟨c, hc, rfl, rfl⟩ := h
  · exact ⟨_, byteOperand_hexByte b, lexLine_word_alone (hexByte_plain b) (by simp [hexByte])⟩
  · exact ⟨_, byteOperand_decByte b, lexLine_word_alone (decByte_plain b).1 (decByte_plain b).2⟩
  · refine ⟨.quoted c, by simp [byteOperand, hc], by simp [lexLine_quoted, lexLine, flushWord], fun r => ?_⟩
    rw [List.cons_append, List.cons_append, List.cons_append, List.nil_append, lexLine_quoted, lexLine_comma]
    rfl

/-- Operands written after a mnemonic read as their bytes (R73, R74). -/
theorem byteOperands_operandText {texts : List (List Char)} {bs : List Byte}
    (h : List.Forall₂ IsByteText texts bs) : byteOperands (lexLine [] (operandText texts)) = .ok bs := by
  induction h with
  | nil => simp [operandText, lexLine, flushWord, byteOperands]
  | @cons t b ts bs ht hts ih =>
    obtain ⟨tok, hb, h1, h2⟩ := ht.reads
    cases hts with
    | nil => simp [operandText, lexLine_blank, flushWord, h1, byteOperands, hb, Except.map]
    | @cons u c us cs hu hus =>
      obtain ⟨tok', -, h1', h2'⟩ := hu.reads
      rw [operandText, List.cons_append, List.cons_append, lexLine_blank, List.append_assoc, List.singleton_append, h2]
      have hl : ∃ rest, lexLine [] (operandText (u :: us)) = tok' :: rest := by
        cases us with
        | nil => exact ⟨[], by simp [operandText, lexLine_blank, flushWord, h1']⟩
        | cons v vs => exact ⟨_, by simp only [operandText, List.cons_append, List.append_assoc, List.nil_append,
            lexLine_blank, flushWord, h2']; rfl⟩
      obtain ⟨rest, hr⟩ := hl
      rw [hr] at ih ⊢
      simp [flushWord, byteOperands, hb, ih]

end Sys2Proof.Machine
end

