-- ==== Sys2Proof/Laws/State.lean ====
section
/-! SUPPORT. For each update of the state, what each field holds after it: one lemma a field, true by unfolding, so that
no later proof unfolds a record update. -/

namespace Sys2Proof.Machine

@[simp] theorem State.storeByte_present (s : State) (a : Nat) (b : Byte) : (s.storeByte a b).present = s.present := rfl
@[simp] theorem State.storeByte_len (s : State) (a : Nat) (b : Byte) : (s.storeByte a b).len = s.len := rfl
@[simp] theorem State.storeByte_buf (s : State) (a : Nat) (b : Byte) : (s.storeByte a b).buf = s.buf.writeByte a b := rfl
@[simp] theorem State.storeByte_res (s : State) (a : Nat) (b : Byte) : (s.storeByte a b).res = s.res := rfl
@[simp] theorem State.storeByte_hv (s : State) (a : Nat) (b : Byte) : (s.storeByte a b).hv = s.hv := rfl
@[simp] theorem State.storeByte_ver (s : State) (a : Nat) (b : Byte) : (s.storeByte a b).ver = s.ver := rfl
@[simp] theorem State.storeByte_rev (s : State) (a : Nat) (b : Byte) : (s.storeByte a b).rev = s.rev := rfl
@[simp] theorem State.storeByte_flags (s : State) (a : Nat) (b : Byte) : (s.storeByte a b).flags = s.flags := rfl
@[simp] theorem State.storeByte_size (s : State) (a : Nat) (b : Byte) : (s.storeByte a b).size = s.size := rfl
@[simp] theorem State.storeByte_port (s : State) (a : Nat) (b : Byte) : (s.storeByte a b).port = s.port := rfl

@[simp] theorem State.advanceLen_present (s : State) : (s.advanceLen).present = s.present := rfl
@[simp] theorem State.advanceLen_len (s : State) : (s.advanceLen).len = s.len + 1#5 := rfl
@[simp] theorem State.advanceLen_buf (s : State) : (s.advanceLen).buf = s.buf := rfl
@[simp] theorem State.advanceLen_res (s : State) : (s.advanceLen).res = s.res := rfl
@[simp] theorem State.advanceLen_hv (s : State) : (s.advanceLen).hv = s.hv := rfl
@[simp] theorem State.advanceLen_ver (s : State) : (s.advanceLen).ver = s.ver := rfl
@[simp] theorem State.advanceLen_rev (s : State) : (s.advanceLen).rev = s.rev := rfl
@[simp] theorem State.advanceLen_flags (s : State) : (s.advanceLen).flags = s.flags := rfl
@[simp] theorem State.advanceLen_size (s : State) : (s.advanceLen).size = s.size := rfl
@[simp] theorem State.advanceLen_port (s : State) : (s.advanceLen).port = s.port := rfl

@[simp] theorem State.openSequence_present (s : State) : (s.openSequence).present = true := rfl
@[simp] theorem State.openSequence_len (s : State) : (s.openSequence).len = 0#5 := rfl
@[simp] theorem State.openSequence_buf (s : State) : (s.openSequence).buf = s.buf := rfl
@[simp] theorem State.openSequence_res (s : State) : (s.openSequence).res = s.res := rfl
@[simp] theorem State.openSequence_hv (s : State) : (s.openSequence).hv = s.hv := rfl
@[simp] theorem State.openSequence_ver (s : State) : (s.openSequence).ver = s.ver := rfl
@[simp] theorem State.openSequence_rev (s : State) : (s.openSequence).rev = s.rev := rfl
@[simp] theorem State.openSequence_flags (s : State) : (s.openSequence).flags = s.flags := rfl
@[simp] theorem State.openSequence_size (s : State) : (s.openSequence).size = s.size := rfl
@[simp] theorem State.openSequence_port (s : State) : (s.openSequence).port = s.port := rfl

@[simp] theorem State.dropSequence_present (s : State) : (s.dropSequence).present = false := rfl
@[simp] theorem State.dropSequence_len (s : State) : (s.dropSequence).len = 0#5 := rfl
@[simp] theorem State.dropSequence_buf (s : State) : (s.dropSequence).buf = s.buf := rfl
@[simp] theorem State.dropSequence_res (s : State) : (s.dropSequence).res = s.res := rfl
@[simp] theorem State.dropSequence_hv (s : State) : (s.dropSequence).hv = s.hv := rfl
@[simp] theorem State.dropSequence_ver (s : State) : (s.dropSequence).ver = s.ver := rfl
@[simp] theorem State.dropSequence_rev (s : State) : (s.dropSequence).rev = s.rev := rfl
@[simp] theorem State.dropSequence_flags (s : State) : (s.dropSequence).flags = s.flags := rfl
@[simp] theorem State.dropSequence_size (s : State) : (s.dropSequence).size = s.size := rfl
@[simp] theorem State.dropSequence_port (s : State) : (s.dropSequence).port = s.port := rfl

@[simp] theorem State.clearHeader_present (s : State) : (s.clearHeader).present = s.present := rfl
@[simp] theorem State.clearHeader_len (s : State) : (s.clearHeader).len = s.len := rfl
@[simp] theorem State.clearHeader_buf (s : State) : (s.clearHeader).buf = s.buf := rfl
@[simp] theorem State.clearHeader_res (s : State) : (s.clearHeader).res = s.res := rfl
@[simp] theorem State.clearHeader_hv (s : State) : (s.clearHeader).hv = false := rfl
@[simp] theorem State.clearHeader_ver (s : State) : (s.clearHeader).ver = 0x00#8 := rfl
@[simp] theorem State.clearHeader_rev (s : State) : (s.clearHeader).rev = 0x00#8 := rfl
@[simp] theorem State.clearHeader_flags (s : State) : (s.clearHeader).flags = 0x00#8 := rfl
@[simp] theorem State.clearHeader_size (s : State) : (s.clearHeader).size = 0#32 := rfl
@[simp] theorem State.clearHeader_port (s : State) : (s.clearHeader).port = s.port := rfl

@[simp] theorem State.setHeader_present (s : State) (v r f : Byte) (z : SizeWord) : (s.setHeader v r f z).present = s.present := rfl
@[simp] theorem State.setHeader_len (s : State) (v r f : Byte) (z : SizeWord) : (s.setHeader v r f z).len = s.len := rfl
@[simp] theorem State.setHeader_buf (s : State) (v r f : Byte) (z : SizeWord) : (s.setHeader v r f z).buf = s.buf := rfl
@[simp] theorem State.setHeader_res (s : State) (v r f : Byte) (z : SizeWord) : (s.setHeader v r f z).res = s.res := rfl
@[simp] theorem State.setHeader_hv (s : State) (v r f : Byte) (z : SizeWord) : (s.setHeader v r f z).hv = true := rfl
@[simp] theorem State.setHeader_ver (s : State) (v r f : Byte) (z : SizeWord) : (s.setHeader v r f z).ver = v := rfl
@[simp] theorem State.setHeader_rev (s : State) (v r f : Byte) (z : SizeWord) : (s.setHeader v r f z).rev = r := rfl
@[simp] theorem State.setHeader_flags (s : State) (v r f : Byte) (z : SizeWord) : (s.setHeader v r f z).flags = f := rfl
@[simp] theorem State.setHeader_size (s : State) (v r f : Byte) (z : SizeWord) : (s.setHeader v r f z).size = z := rfl
@[simp] theorem State.setHeader_port (s : State) (v r f : Byte) (z : SizeWord) : (s.setHeader v r f z).port = s.port := rfl

@[simp] theorem State.setRes_present (s : State) (r : Res) : (s.setRes r).present = s.present := rfl
@[simp] theorem State.setRes_len (s : State) (r : Res) : (s.setRes r).len = s.len := rfl
@[simp] theorem State.setRes_buf (s : State) (r : Res) : (s.setRes r).buf = s.buf := rfl
@[simp] theorem State.setRes_res (s : State) (r : Res) : (s.setRes r).res = r := rfl
@[simp] theorem State.setRes_hv (s : State) (r : Res) : (s.setRes r).hv = s.hv := rfl
@[simp] theorem State.setRes_ver (s : State) (r : Res) : (s.setRes r).ver = s.ver := rfl
@[simp] theorem State.setRes_rev (s : State) (r : Res) : (s.setRes r).rev = s.rev := rfl
@[simp] theorem State.setRes_flags (s : State) (r : Res) : (s.setRes r).flags = s.flags := rfl
@[simp] theorem State.setRes_size (s : State) (r : Res) : (s.setRes r).size = s.size := rfl
@[simp] theorem State.setRes_port (s : State) (r : Res) : (s.setRes r).port = s.port := rfl

@[simp] theorem State.offerFirst_present (s : State) (e : PortEvent) : (s.offerFirst e).present = s.present := rfl
@[simp] theorem State.offerFirst_len (s : State) (e : PortEvent) : (s.offerFirst e).len = s.len := rfl
@[simp] theorem State.offerFirst_buf (s : State) (e : PortEvent) : (s.offerFirst e).buf = s.buf := rfl
@[simp] theorem State.offerFirst_res (s : State) (e : PortEvent) : (s.offerFirst e).res = s.res := rfl
@[simp] theorem State.offerFirst_hv (s : State) (e : PortEvent) : (s.offerFirst e).hv = s.hv := rfl
@[simp] theorem State.offerFirst_ver (s : State) (e : PortEvent) : (s.offerFirst e).ver = s.ver := rfl
@[simp] theorem State.offerFirst_rev (s : State) (e : PortEvent) : (s.offerFirst e).rev = s.rev := rfl
@[simp] theorem State.offerFirst_flags (s : State) (e : PortEvent) : (s.offerFirst e).flags = s.flags := rfl
@[simp] theorem State.offerFirst_size (s : State) (e : PortEvent) : (s.offerFirst e).size = s.size := rfl
@[simp] theorem State.offerFirst_port (s : State) (e : PortEvent) : (s.offerFirst e).port = e :: s.port := rfl

theorem State.raise_eq (s : State) (c : FailureCause) : s.raise c = s.setRes c.outcome := rfl

theorem State.clearOutcome_eq (s : State) : s.clearOutcome = s.setRes .rNone := rfl

@[simp] theorem State.raise_present (s : State) (c : FailureCause) : (s.raise c).present = s.present := rfl
@[simp] theorem State.raise_len (s : State) (c : FailureCause) : (s.raise c).len = s.len := rfl
@[simp] theorem State.raise_buf (s : State) (c : FailureCause) : (s.raise c).buf = s.buf := rfl
@[simp] theorem State.raise_res (s : State) (c : FailureCause) : (s.raise c).res = c.outcome := rfl
@[simp] theorem State.raise_hv (s : State) (c : FailureCause) : (s.raise c).hv = s.hv := rfl
@[simp] theorem State.raise_ver (s : State) (c : FailureCause) : (s.raise c).ver = s.ver := rfl
@[simp] theorem State.raise_rev (s : State) (c : FailureCause) : (s.raise c).rev = s.rev := rfl
@[simp] theorem State.raise_flags (s : State) (c : FailureCause) : (s.raise c).flags = s.flags := rfl
@[simp] theorem State.raise_size (s : State) (c : FailureCause) : (s.raise c).size = s.size := rfl
@[simp] theorem State.raise_port (s : State) (c : FailureCause) : (s.raise c).port = s.port := rfl

@[simp] theorem State.clearOutcome_present (s : State) : (s.clearOutcome).present = s.present := rfl
@[simp] theorem State.clearOutcome_len (s : State) : (s.clearOutcome).len = s.len := rfl
@[simp] theorem State.clearOutcome_buf (s : State) : (s.clearOutcome).buf = s.buf := rfl
@[simp] theorem State.clearOutcome_res (s : State) : (s.clearOutcome).res = .rNone := rfl
@[simp] theorem State.clearOutcome_hv (s : State) : (s.clearOutcome).hv = s.hv := rfl
@[simp] theorem State.clearOutcome_ver (s : State) : (s.clearOutcome).ver = s.ver := rfl
@[simp] theorem State.clearOutcome_rev (s : State) : (s.clearOutcome).rev = s.rev := rfl
@[simp] theorem State.clearOutcome_flags (s : State) : (s.clearOutcome).flags = s.flags := rfl
@[simp] theorem State.clearOutcome_size (s : State) : (s.clearOutcome).size = s.size := rfl
@[simp] theorem State.clearOutcome_port (s : State) : (s.clearOutcome).port = s.port := rfl

end Sys2Proof.Machine
end

