-- ==== Sys2Proof/Laws/Memory.lean ====
section
/-! SUPPORT. The laws of the buffer: a read after a write, and the canonical form that every write keeps. -/

namespace Sys2Proof.Machine

@[simp] theorem Memory.readByte_nil (a : Nat) : Memory.readByte [] a = none := rfl

theorem Memory.readByte_cons (k : Nat) (v : Byte) (m : Memory) (a : Nat) :
    Memory.readByte ((k, v) :: m) a = if k = a then some v else Memory.readByte m a := rfl

/-- A read after a write: the byte written at its address, what was there elsewhere. -/
theorem Memory.readByte_writeByte (m : Memory) (a c : Nat) (b : Byte) :
    (m.writeByte a b).readByte c = if c = a then some b else m.readByte c := by
  have hcomm : (c = a) = (a = c) := propext eq_comm
  rw [if_congr (iff_of_eq hcomm) rfl rfl]
  induction m with
  | nil => rfl
  | cons cell m ih =>
    obtain ⟨k, v⟩ := cell
    simp only [Memory.writeByte]
    split
    · rfl
    · split
      · subst_vars
        simp only [Memory.readByte_cons]
        split <;> rfl
      · by_cases hk : k = c
        · have : a ≠ c := by omega
          simp [Memory.readByte_cons, hk, this]
        · simp [Memory.readByte_cons, hk, ih]

@[simp] theorem Memory.readByte_writeByte_same (m : Memory) (a : Nat) (b : Byte) :
    (m.writeByte a b).readByte a = some b := by
  simp [Memory.readByte_writeByte]

theorem Memory.readByte_writeByte_other (m : Memory) {a c : Nat} (b : Byte) (h : c ≠ a) :
    (m.writeByte a b).readByte c = m.readByte c := by
  simp [Memory.readByte_writeByte, h]

/-- A write at an address of the buffer keeps the canonical form. -/
theorem Memory.wfFrom_writeByte (m : Memory) (lo a : Nat) (b : Byte) (hlo : lo ≤ a) (ha : a < Config.cap)
    (h : m.wfFrom lo = true) : (m.writeByte a b).wfFrom lo = true := by
  induction m generalizing lo with
  | nil => simp [Memory.writeByte, Memory.wfFrom, hlo, ha]
  | cons cell m ih =>
    obtain ⟨k, v⟩ := cell
    simp only [Memory.wfFrom, Bool.and_eq_true, decide_eq_true_eq] at h
    obtain ⟨⟨h1, h2⟩, h3⟩ := h
    simp only [Memory.writeByte]
    split
    · simp only [Memory.wfFrom, Bool.and_eq_true, decide_eq_true_eq]
      exact ⟨⟨hlo, ha⟩, ⟨by omega, h2⟩, h3⟩
    · split
      · subst_vars
        simp only [Memory.wfFrom, Bool.and_eq_true, decide_eq_true_eq]
        exact ⟨⟨hlo, ha⟩, h3⟩
      · simp only [Memory.wfFrom, Bool.and_eq_true, decide_eq_true_eq]
        exact ⟨⟨h1, h2⟩, ih (k + 1) (by omega) h3⟩

theorem Memory.wf_writeByte (m : Memory) (a : Nat) (b : Byte) (ha : a < Config.cap) (h : m.wf = true) :
    (m.writeByte a b).wf = true :=
  Memory.wfFrom_writeByte m 0 a b (Nat.zero_le a) ha h

/-- In canonical form nothing is listed below the bound. -/
theorem Memory.readByte_below (m : Memory) (lo a : Nat) (h : m.wfFrom lo = true) (ha : a < lo) :
    m.readByte a = none := by
  induction m generalizing lo with
  | nil => rfl
  | cons cell m ih =>
    obtain ⟨k, v⟩ := cell
    simp only [Memory.wfFrom, Bool.and_eq_true, decide_eq_true_eq] at h
    have hk : k ≠ a := by omega
    simpa [Memory.readByte_cons, hk] using ih (k + 1) h.2 (by omega)

/-- Equal memories are equal data: two canonical buffers that hold the same byte, or none, at every address are the
same list. -/
theorem Memory.wfFrom_ext (m n : Memory) (lo : Nat) (hm : m.wfFrom lo = true) (hn : n.wfFrom lo = true)
    (h : ∀ a, m.readByte a = n.readByte a) : m = n := by
  induction m generalizing n lo with
  | nil =>
    cases n with
    | nil => rfl
    | cons cell n =>
      obtain ⟨k, v⟩ := cell
      simpa [Memory.readByte_cons] using h k
  | cons cell m ih =>
    obtain ⟨k, v⟩ := cell
    cases n with
    | nil => simpa [Memory.readByte_cons] using h k
    | cons cell' n =>
      obtain ⟨k', v'⟩ := cell'
      simp only [Memory.wfFrom, Bool.and_eq_true, decide_eq_true_eq] at hm hn
      have hkk : k = k' := by
        rcases Nat.lt_trichotomy k k' with hlt | heq | hgt
        · have h1 := h k
          have h2 := Memory.readByte_below n (k' + 1) k hn.2 (by omega)
          have : k' ≠ k := by omega
          simp [Memory.readByte_cons, this, h2] at h1
        · exact heq
        · have h1 := h k'
          have h2 := Memory.readByte_below m (k + 1) k' hm.2 (by omega)
          have : k ≠ k' := by omega
          simp [Memory.readByte_cons, this, h2] at h1
      subst hkk
      have hv : v = v' := by simpa [Memory.readByte_cons] using h k
      subst hv
      have hrest : m = n := by
        refine ih n (k + 1) hm.2 hn.2 fun a => ?_
        by_cases ha : k = a
        · subst ha
          rw [Memory.readByte_below m (k + 1) k hm.2 (by omega), Memory.readByte_below n (k + 1) k hn.2 (by omega)]
        · simpa [Memory.readByte_cons, ha] using h a
      rw [hrest]

theorem reset_buf_wf : State.reset.buf.wf = true := rfl

/-! ## Reads of the state's buffer -/

theorem State.loadByte_eq (s : State) (a : Nat) :
    s.loadByte a = (s.buf.readByte a).getD (Config.unwrittenByte a) := rfl

/-- A load reads only `BUF`. -/
theorem State.loadByte_congr {s t : State} (h : s.buf = t.buf) (a : Nat) : s.loadByte a = t.loadByte a := by
  simp [State.loadByte_eq, h]

/-- A byte that was written is what a load gives, whatever the free value. -/
theorem State.loadByte_of_some {s : State} {a : Nat} {b : Byte} (h : s.buf.readByte a = some b) :
    s.loadByte a = b := by
  simp [State.loadByte_eq, h]

theorem State.loadByte_storeByte (s : State) (a c : Nat) (b : Byte) :
    (s.storeByte a b).loadByte c = if c = a then b else s.loadByte c := by
  by_cases h : c = a <;> simp [State.loadByte_eq, Memory.readByte_writeByte, h]

/-- The captured header word depends only on the bytes at addresses 0 to 9 (R42). -/
theorem State.headerWord_congr {s t : State} (h : ∀ a, a < Config.hdrLen → s.loadByte a = t.loadByte a) :
    s.headerWord = t.headerWord := by
  simp [State.headerWord, h 0 (by decide), h 1 (by decide), h 2 (by decide), h 3 (by decide), h 4 (by decide),
    h 5 (by decide), h 6 (by decide), h 7 (by decide), h 8 (by decide), h 9 (by decide)]

theorem State.headerWord_congr_buf {s t : State} (h : s.buf = t.buf) : s.headerWord = t.headerWord :=
  State.headerWord_congr fun a _ => State.loadByte_congr h a

end Sys2Proof.Machine
end

