-- ==== Sys2Proof/Laws/Commands.lean ====
section
/-! SUPPORT. For each command, once, everything it can do: which fields it writes, which it leaves. Later proofs cite
these and do not unfold the commands. -/

namespace Sys2Proof.Machine

/-! ## Tests on the sequence -/

theorem State.inputFailure_eq_none {s : State} :
    s.inputFailure = none ↔ s.present = true ∧ Config.hdrLen ≤ s.len.toNat := by
  unfold State.inputFailure
  split
  · simp [*]
  · split <;> simp_all

theorem State.inputFailure_eq_absent {s : State} : s.inputFailure = some .absent ↔ s.present = false := by
  unfold State.inputFailure
  split
  · simp [*]
  · split <;> simp_all

theorem State.inputFailure_eq_short {s : State} :
    s.inputFailure = some .short ↔ s.present = true ∧ s.len.toNat < Config.hdrLen := by
  unfold State.inputFailure
  split
  · simp [*]
  · split <;> simp_all

theorem State.inputFailure_ne_tag (s : State) : s.inputFailure ≠ some .tag := by
  unfold State.inputFailure
  split
  · simp
  · split <;> simp

/-- The sequence's own failure depends on `PRESENT` and `LEN` only. -/
theorem State.inputFailure_congr {s t : State} (hp : s.present = t.present) (hl : s.len = t.len) :
    s.inputFailure = t.inputFailure := by
  simp [State.inputFailure, hp, hl]

theorem State.pushAddress_eq_some {s : State} {a : Nat} :
    s.pushAddress = some a ↔ s.present = true ∧ s.len.toNat < Config.cap ∧ s.len.toNat = a := by
  unfold State.pushAddress
  split <;> simp_all

theorem State.pushAddress_eq_none {s : State} :
    s.pushAddress = none ↔ s.present = false ∨ Config.cap ≤ s.len.toNat := by
  unfold State.pushAddress
  split
  · simp_all
  · rename_i h
    cases hp : s.present <;> simp_all

/-- Below 20 the count goes up by exactly one, without a wrap (R110). -/
theorem LenWord.toNat_succ {n : LenWord} (h : n.toNat < Config.cap) : (n + 1#5).toNat = n.toNat + 1 := by
  have h20 : n.toNat < 20 := h
  rw [BitVec.toNat_add, BitVec.toNat_ofNat]
  omega

/-! ## `BEGIN` (R81) -/

@[simp] theorem State.afterBegin_present (s : State) : s.afterBegin.present = true := rfl
@[simp] theorem State.afterBegin_len (s : State) : s.afterBegin.len = 0#5 := rfl
@[simp] theorem State.afterBegin_buf (s : State) : s.afterBegin.buf = s.buf := rfl
@[simp] theorem State.afterBegin_res (s : State) : s.afterBegin.res = .rNone := rfl
@[simp] theorem State.afterBegin_record (s : State) : s.afterBegin.headerRecord = Record.empty := rfl
@[simp] theorem State.afterBegin_port (s : State) : s.afterBegin.port = s.port := rfl

/-! ## `PUSH` (R82) -/

/-- A `PUSH` either captures, at `LEN`, or changes nothing. -/
theorem State.afterPush_cases (s : State) (b : Byte) :
    (s.present = true ∧ s.len.toNat < Config.cap ∧ s.afterPush b = (s.storeByte s.len.toNat b).advanceLen) ∨
    ((s.present = false ∨ Config.cap ≤ s.len.toNat) ∧ s.afterPush b = s) := by
  unfold State.afterPush
  split
  · rename_i a h
    obtain ⟨hp, hl, ha⟩ := State.pushAddress_eq_some.mp h
    exact .inl ⟨hp, hl, by rw [ha]⟩
  · rename_i h
    exact .inr ⟨State.pushAddress_eq_none.mp h, rfl⟩

theorem State.afterPush_captures {s : State} (b : Byte) (hp : s.present = true) (hl : s.len.toNat < Config.cap) :
    s.afterPush b = (s.storeByte s.len.toNat b).advanceLen := by
  obtain ⟨_, _, h⟩ | ⟨h | h, _⟩ := s.afterPush_cases b
  · exact h
  · simp [hp] at h
  · exact absurd hl (by omega)

theorem State.afterPush_drops {s : State} (b : Byte) (h : s.present = false ∨ Config.cap ≤ s.len.toNat) :
    s.afterPush b = s := by
  obtain ⟨hp, hl, _⟩ | ⟨_, h'⟩ := s.afterPush_cases b
  · rcases h with h | h
    · simp [hp] at h
    · exact absurd hl (by omega)
  · exact h'

@[simp] theorem State.afterPush_present (s : State) (b : Byte) : (s.afterPush b).present = s.present := by
  obtain ⟨_, _, h⟩ | ⟨_, h⟩ := s.afterPush_cases b <;> simp [h]
@[simp] theorem State.afterPush_res (s : State) (b : Byte) : (s.afterPush b).res = s.res := by
  obtain ⟨_, _, h⟩ | ⟨_, h⟩ := s.afterPush_cases b <;> simp [h]
@[simp] theorem State.afterPush_hv (s : State) (b : Byte) : (s.afterPush b).hv = s.hv := by
  obtain ⟨_, _, h⟩ | ⟨_, h⟩ := s.afterPush_cases b <;> simp [h]
@[simp] theorem State.afterPush_ver (s : State) (b : Byte) : (s.afterPush b).ver = s.ver := by
  obtain ⟨_, _, h⟩ | ⟨_, h⟩ := s.afterPush_cases b <;> simp [h]
@[simp] theorem State.afterPush_rev (s : State) (b : Byte) : (s.afterPush b).rev = s.rev := by
  obtain ⟨_, _, h⟩ | ⟨_, h⟩ := s.afterPush_cases b <;> simp [h]
@[simp] theorem State.afterPush_flags (s : State) (b : Byte) : (s.afterPush b).flags = s.flags := by
  obtain ⟨_, _, h⟩ | ⟨_, h⟩ := s.afterPush_cases b <;> simp [h]
@[simp] theorem State.afterPush_size (s : State) (b : Byte) : (s.afterPush b).size = s.size := by
  obtain ⟨_, _, h⟩ | ⟨_, h⟩ := s.afterPush_cases b <;> simp [h]
@[simp] theorem State.afterPush_port (s : State) (b : Byte) : (s.afterPush b).port = s.port := by
  obtain ⟨_, _, h⟩ | ⟨_, h⟩ := s.afterPush_cases b <;> simp [h]

theorem State.afterPush_record (s : State) (b : Byte) : (s.afterPush b).headerRecord = s.headerRecord := by
  simp [State.headerRecord]

/-- A `PUSH` leaves every byte below `LEN` as it is (the ground of I5). -/
theorem State.afterPush_loadByte_below (s : State) (b : Byte) {a : Nat} (h : a < s.len.toNat) :
    (s.afterPush b).loadByte a = s.loadByte a := by
  obtain ⟨_, _, h'⟩ | ⟨_, h'⟩ := s.afterPush_cases b
  · rw [h']
    have hne : a ≠ s.len.toNat := by omega
    rw [State.loadByte_congr (s := (s.storeByte s.len.toNat b).advanceLen) (t := s.storeByte s.len.toNat b) rfl, State.loadByte_storeByte, if_neg hne]
  · rw [h']

/-- A `PUSH` never lowers `LEN`. -/
theorem State.len_le_afterPush (s : State) (b : Byte) : s.len.toNat ≤ (s.afterPush b).len.toNat := by
  obtain ⟨_, hl, h⟩ | ⟨_, h⟩ := s.afterPush_cases b
  · rw [h]
    simp only [State.advanceLen_len, State.storeByte_len, LenWord.toNat_succ hl]
    omega
  · rw [h]

/-! ## `VALID` (R95) -/

/-- `VALID` writes `RES` and nothing else. -/
theorem State.afterValid_eq (s : State) : s.afterValid = s.setRes s.afterValid.res := by
  unfold State.afterValid
  split
  · rfl
  · split <;> rfl

@[simp] theorem State.afterValid_present (s : State) : s.afterValid.present = s.present := by
  rw [State.afterValid_eq]; rfl
@[simp] theorem State.afterValid_len (s : State) : s.afterValid.len = s.len := by
  rw [State.afterValid_eq]; rfl
@[simp] theorem State.afterValid_buf (s : State) : s.afterValid.buf = s.buf := by
  rw [State.afterValid_eq]; rfl
@[simp] theorem State.afterValid_hv (s : State) : s.afterValid.hv = s.hv := by
  rw [State.afterValid_eq]; rfl
@[simp] theorem State.afterValid_ver (s : State) : s.afterValid.ver = s.ver := by
  rw [State.afterValid_eq]; rfl
@[simp] theorem State.afterValid_rev (s : State) : s.afterValid.rev = s.rev := by
  rw [State.afterValid_eq]; rfl
@[simp] theorem State.afterValid_flags (s : State) : s.afterValid.flags = s.flags := by
  rw [State.afterValid_eq]; rfl
@[simp] theorem State.afterValid_size (s : State) : s.afterValid.size = s.size := by
  rw [State.afterValid_eq]; rfl
@[simp] theorem State.afterValid_port (s : State) : s.afterValid.port = s.port := by
  rw [State.afterValid_eq]; rfl

theorem State.afterValid_record (s : State) : s.afterValid.headerRecord = s.headerRecord := by
  simp [State.headerRecord]

/-- The outcome of `VALID`, in the order of R123. -/
theorem State.afterValid_res (s : State) :
    s.afterValid.res = match s.inputFailure with
      | some c => c.outcome
      | none => if legal10 s.headerWord then .rTrue else .rFalse := by
  unfold State.afterValid
  cases s.inputFailure with
  | some c => rfl
  | none => dsimp only; split <;> rfl

/-! ## `DEC` (R106) -/

theorem State.decFailure_eq_none {s : State} :
    s.decFailure = none ↔ s.inputFailure = none ∧ legal10 s.headerWord = true := by
  unfold State.decFailure
  split
  · simp [*]
  · split <;> simp_all

/-- `DEC` depends on `PRESENT`, on `LEN` and on the bytes at 0 to 9 (R109). -/
theorem State.decFailure_congr {s t : State} (hi : s.inputFailure = t.inputFailure)
    (hw : s.headerWord = t.headerWord) : s.decFailure = t.decFailure := by
  simp [State.decFailure, hi, hw]

theorem State.afterDec_fails {s : State} {c : FailureCause} (h : s.decFailure = some c) :
    s.afterDec = s.clearHeader.raise c := by
  simp [State.afterDec, h]

theorem State.afterDec_succeeds {s : State} (h : s.decFailure = none) :
    s.afterDec = (s.storeRecord s.headerWord).setRes .rHeader := by
  simp [State.afterDec, h]

@[simp] theorem State.storeRecord_record (s : State) (h : HeaderWord) :
    (s.storeRecord h).headerRecord = recordOf h := rfl

@[simp] theorem State.afterDec_present (s : State) : s.afterDec.present = s.present := by
  unfold State.afterDec; split <;> rfl
@[simp] theorem State.afterDec_len (s : State) : s.afterDec.len = s.len := by
  unfold State.afterDec; split <;> rfl
@[simp] theorem State.afterDec_buf (s : State) : s.afterDec.buf = s.buf := by
  unfold State.afterDec; split <;> rfl
@[simp] theorem State.afterDec_port (s : State) : s.afterDec.port = s.port := by
  unfold State.afterDec; split <;> rfl

/-- The outcome of `DEC`, in the order of R123. -/
theorem State.afterDec_res (s : State) :
    s.afterDec.res = match s.decFailure with
      | some c => c.outcome
      | none => .rHeader := by
  unfold State.afterDec
  cases s.decFailure <;> rfl

/-- All or nothing (R106): the whole record of the captured header word, or the empty record. -/
theorem State.afterDec_record (s : State) :
    s.afterDec.headerRecord = match s.decFailure with
      | some _ => Record.empty
      | none => recordOf s.headerWord := by
  unfold State.afterDec
  cases s.decFailure <;> rfl

/-! ## Every instruction -/

/-- What `exec` can answer, said once: a next state, and which. -/
theorem exec_cases {i : Instr} {s t : State} (h : exec i s = .next t) :
    (i = .begin ∧ t = s.afterBegin) ∨ (∃ b, i = .push b ∧ t = s.afterPush b) ∨
    (i = .valid ∧ t = s.afterValid) ∨ (i = .dec ∧ t = s.afterDec) ∨
    (∃ hw, i = .id3v2Header hw ∧ t = (s.afterBegin.afterFeed (headerToBytes hw)).afterDec) := by
  cases i <;> simp only [exec, execBegin, execPush, execValid, execDec, execId3v2Header, Host.Outcome.next.injEq] at h
    <;> simp [h]

end Sys2Proof.Machine
end

