-- ==== Sys2Proof/Laws/PerInstr.lean ====
section
/-! SUPPORT. Statements for all instructions, made per instruction. -/

/-- `EncodedLength`: an instruction's word has the length of its format, two bytes for a command word of 10 bits, ten
bytes for a header word (spec/30_encoding.md R71). -/
def Sys2Proof.Laws.EncodedLength.Statement (i : Sys2Proof.Instr) : Prop :=
  (Sys2Proof.encodeBytes i).length =
    match i with
    | .begin => 2
    | .push _ => 2
    | .valid => 2
    | .dec => 2
    | .id3v2Header _ => 10

theorem Sys2Proof.Laws.EncodedLength.begin : Sys2Proof.Laws.EncodedLength.Statement .begin := rfl

theorem Sys2Proof.Laws.EncodedLength.push (imm8 : Sys2Proof.Byte) :
    Sys2Proof.Laws.EncodedLength.Statement (.push imm8) := rfl

theorem Sys2Proof.Laws.EncodedLength.valid : Sys2Proof.Laws.EncodedLength.Statement .valid := rfl

theorem Sys2Proof.Laws.EncodedLength.dec : Sys2Proof.Laws.EncodedLength.Statement .dec := rfl

theorem Sys2Proof.Laws.EncodedLength.id3v2Header (h : Sys2Proof.HeaderWord) :
    Sys2Proof.Laws.EncodedLength.Statement (.id3v2Header h) := rfl
end

