-- ==== Sys2Proof/Laws/Runs.lean ====
section
/-! SUPPORT. What a run of events and a feed of bytes do, said once: the state after an instruction as a function of its
own, so that no proof unfolds `exec` inside a long term, and the bytes that a feed leaves in the buffer. -/

namespace Sys2Proof.Machine

/-! ## Instructions and events as functions of the state -/

/-- The state after an instruction. -/
def State.afterInstr (s : State) : Instr → State
  | .begin => s.afterBegin
  | .push b => s.afterPush b
  | .valid => s.afterValid
  | .dec => s.afterDec
  | .id3v2Header h => (s.afterBegin.afterFeed (headerToBytes h)).afterDec

theorem State.afterInstr_begin (s : State) : s.afterInstr .begin = s.afterBegin := rfl
theorem State.afterInstr_push (s : State) (b : Byte) : s.afterInstr (.push b) = s.afterPush b := rfl
theorem State.afterInstr_valid (s : State) : s.afterInstr .valid = s.afterValid := rfl
theorem State.afterInstr_dec (s : State) : s.afterInstr .dec = s.afterDec := rfl
theorem State.afterInstr_id3v2Header (s : State) (h : HeaderWord) :
    s.afterInstr (.id3v2Header h) = (s.afterBegin.afterFeed (headerToBytes h)).afterDec := rfl

theorem exec_eq_afterInstr (i : Instr) (s : State) : exec i s = .next (s.afterInstr i) := by
  cases i <;> rfl

/-- The state after an event. -/
def State.afterEvent (s : State) : PortEvent → State
  | .present w => s.afterInstr (decode w)
  | .reset => s.afterReset

theorem State.afterEvent_present (s : State) (w : PortWord) :
    s.afterEvent (.present w) = s.afterInstr (decode w) := rfl
theorem State.afterEvent_reset (s : State) : s.afterEvent .reset = s.afterReset := rfl

theorem handleEvent_eq_afterEvent (e : PortEvent) (s : State) : handleEvent e s = .next (s.afterEvent e) := by
  cases e with
  | present w => exact exec_eq_afterInstr (decode w) s
  | reset => rfl

/-- The state after a list of events. -/
def State.afterEvents (s : State) : List PortEvent → State
  | [] => s
  | e :: es => (s.afterEvent e).afterEvents es

theorem runEvents_eq_afterEvents (es : List PortEvent) (s : State) : runEvents es s = .next (s.afterEvents es) := by
  induction es generalizing s with
  | nil => rfl
  | cons e es ih => simp only [runEvents, handleEvent_eq_afterEvent, State.afterEvents, ih]

theorem State.afterEvents_append (s : State) (es fs : List PortEvent) :
    s.afterEvents (es ++ fs) = (s.afterEvents es).afterEvents fs := by
  induction es generalizing s with
  | nil => rfl
  | cons e es ih => exact ih _

/-- The state after the next event that waits; the same state while nothing waits. -/
theorem step_cases {s t : State} (h : step s = .next t) :
    (s.port = [] ∧ t = s) ∨ ∃ e rest, s.port = e :: rest ∧ t = State.afterEvent { s with port := rest } e := by
  cases hp : s.port with
  | nil =>
    simp only [step, State.takeEvent, hp, Host.Outcome.next.injEq] at h
    exact .inl ⟨rfl, h.symm⟩
  | cons e rest =>
    simp only [step, State.takeEvent, hp, handleEvent_eq_afterEvent, Host.Outcome.next.injEq] at h
    exact .inr ⟨e, rest, rfl, h.symm⟩

/-! ## A feed of bytes (R74 `FEED`) -/

/-- A feed writes `BUF` and `LEN` only. -/
theorem State.afterFeed_unwritten (s : State) (bs : List Byte) :
    (s.afterFeed bs).present = s.present ∧ (s.afterFeed bs).res = s.res ∧
    (s.afterFeed bs).headerRecord = s.headerRecord ∧ (s.afterFeed bs).port = s.port := by
  induction bs generalizing s with
  | nil => exact ⟨rfl, rfl, rfl, rfl⟩
  | cons b bs ih =>
    obtain ⟨h1, h2, h3, h4⟩ := ih (s.afterPush b)
    simp only [State.afterFeed]
    exact ⟨by simp [h1], by simp [h2], by rw [h3, State.afterPush_record], by simp [h4]⟩

/-- A capturing `PUSH`, by its reads. -/
theorem State.afterPush_reads {s : State} (b : Byte) (hp : s.present = true) (hl : s.len.toNat < Config.cap) :
    (s.afterPush b).len.toNat = s.len.toNat + 1 ∧
    ∀ a, (s.afterPush b).buf.readByte a = if a = s.len.toNat then some b else s.buf.readByte a := by
  rw [State.afterPush_captures b hp hl]
  exact ⟨by simp [LenWord.toNat_succ hl], fun a => by simp [Memory.readByte_writeByte]⟩

/-- Feeding bytes to a present sequence: `LEN` goes up to at most 20, the bytes stand from the old `LEN` on in stream
order, and every cell below the old `LEN` and from the new `LEN` on is what it was. -/
theorem State.afterFeed_reads (s : State) (bs : List Byte) (hp : s.present = true) (hl : s.len.toNat ≤ Config.cap) :
    (s.afterFeed bs).len.toNat = min (s.len.toNat + bs.length) Config.cap ∧
    (∀ a, a < s.len.toNat → (s.afterFeed bs).buf.readByte a = s.buf.readByte a) ∧
    (∀ a, min (s.len.toNat + bs.length) Config.cap ≤ a → (s.afterFeed bs).buf.readByte a = s.buf.readByte a) ∧
    (∀ i, s.len.toNat + i < Config.cap → i < bs.length →
      (s.afterFeed bs).buf.readByte (s.len.toNat + i) = bs[i]?) := by
  induction bs generalizing s with
  | nil =>
    simp only [State.afterFeed, List.length_nil]
    exact ⟨by omega, fun _ _ => trivial, fun _ _ => trivial, fun i _ h => absurd h (by omega)⟩
  | cons b bs ih =>
    simp only [State.afterFeed, List.length_cons]
    by_cases h : s.len.toNat < Config.cap
    · obtain ⟨r1, r2⟩ := State.afterPush_reads b hp h
      obtain ⟨i1, i2, i3, i4⟩ := ih (s.afterPush b) (by simp [hp]) (by omega)
      rw [r1] at i1 i2 i3 i4
      refine ⟨by rw [i1]; omega, fun a ha => ?_, fun a ha => ?_, fun i hi hb => ?_⟩
      · rw [i2 a (by omega), r2, if_neg (by omega)]
      · rw [i3 a (by omega), r2, if_neg (by omega)]
      · cases i with
        | zero => rw [i2 _ (by omega), r2]; simp
        | succ i =>
          rw [show s.len.toNat + (i + 1) = s.len.toNat + 1 + i by omega, i4 i (by omega) (by omega)]
          simp
    · rw [State.afterPush_drops b (.inr (by omega))]
      obtain ⟨i1, i2, i3, _⟩ := ih s hp hl
      exact ⟨by rw [i1]; omega, i2, fun a ha => i3 a (by omega), fun i hi _ => absurd hi (by omega)⟩

/-! ## The queue at the port is neither read nor written (log 2) -/

theorem State.afterPush_withPort (s : State) (b : Byte) (q : List PortEvent) :
    State.afterPush { s with port := q } b = { s.afterPush b with port := q } := by
  have h : State.pushAddress { s with port := q } = s.pushAddress := rfl
  unfold State.afterPush
  rw [h]
  cases s.pushAddress <;> rfl

theorem State.afterValid_withPort (s : State) (q : List PortEvent) :
    State.afterValid { s with port := q } = { s.afterValid with port := q } := by
  have hi : State.inputFailure { s with port := q } = s.inputFailure := rfl
  have hw : State.headerWord { s with port := q } = s.headerWord := rfl
  unfold State.afterValid
  rw [hi, hw]
  cases s.inputFailure with
  | some c => rfl
  | none => cases h : legal10 s.headerWord <;> rfl

theorem State.afterDec_withPort (s : State) (q : List PortEvent) :
    State.afterDec { s with port := q } = { s.afterDec with port := q } := by
  have hd : State.decFailure { s with port := q } = s.decFailure := rfl
  unfold State.afterDec
  rw [hd]
  cases s.decFailure <;> rfl

theorem State.afterFeed_withPort (s : State) (bs : List Byte) (q : List PortEvent) :
    State.afterFeed { s with port := q } bs = { s.afterFeed bs with port := q } := by
  induction bs generalizing s with
  | nil => rfl
  | cons b bs ih => simp only [State.afterFeed, State.afterPush_withPort, ih]

theorem State.afterInstr_withPort (s : State) (i : Instr) (q : List PortEvent) :
    State.afterInstr { s with port := q } i = { s.afterInstr i with port := q } := by
  cases i with
  | begin => rfl
  | push b => exact State.afterPush_withPort s b q
  | valid => exact State.afterValid_withPort s q
  | dec => exact State.afterDec_withPort s q
  | id3v2Header h =>
    have hb : State.afterBegin { s with port := q } = { s.afterBegin with port := q } := rfl
    simp only [State.afterInstr_id3v2Header, hb, State.afterFeed_withPort, State.afterDec_withPort]

/-- An event has the same effect whatever waits at the port, and leaves it. -/
theorem State.afterEvent_withPort (s : State) (e : PortEvent) (q : List PortEvent) :
    State.afterEvent { s with port := q } e = { s.afterEvent e with port := q } := by
  cases e with
  | present w => exact State.afterInstr_withPort s (decode w) q
  | reset => rfl

/-- The step function of R16, as a function. -/
theorem blockStep_eq_afterEvent (e : BlockInput) (b : BlockState) :
    blockStep e b = .next (State.afterEvent { toBlockState := b, port := [] } e.toEvent).toBlockState := by
  simp only [blockStep, handleEvent_eq_afterEvent]

end Sys2Proof.Machine
end

