-- ==== Sys2Proof/Tests/Slice0.lean ====
section
/-! SUPPORT. The model's own tests, and for every statement with hypotheses a witness that meets them. Expected results
are those of spec/95_test_vectors.md, whose vector stands in each test's comment, or words written out from
spec/30_encoding.md. -/

namespace Sys2Proof.Tests

open Sys2Proof Sys2Proof.Machine

/-! ## Small states -/

/-- A state in which the bytes were captured and nothing was asked. -/
def captured (bs : List Byte) : State :=
  { State.reset with present := true, len := BitVec.ofNat 5 bs.length, buf := bs.zipIdx.map fun p => (p.2, p.1) }

/-- The ten bytes of vector V-D9. -/
def legalBytes : List Byte :=
  [0x49#8, 0x44#8, 0x33#8, 0x02#8, 0x05#8, 0xC0#8, 0x01#8, 0x02#8, 0x03#8, 0x04#8]

/-- The ten bytes of vector V-D8. -/
def illegalBytes : List Byte :=
  [0x41#8, 0x44#8, 0x33#8, 0x03#8, 0x00#8, 0x00#8, 0x00#8, 0x00#8, 0x02#8, 0x01#8]

/-- The header word of vector V-D9. -/
def legalWord : HeaderWord := ⟨0x49#8, 0x44#8, 0x33#8, 0x02#8, 0x05#8, 0xC0#8, 0x01#8, 0x02#8, 0x03#8, 0x04#8⟩

/-- The header word of vector V-D8. -/
def illegalWord : HeaderWord := ⟨0x41#8, 0x44#8, 0x33#8, 0x03#8, 0x00#8, 0x00#8, 0x00#8, 0x00#8, 0x02#8, 0x01#8⟩

/-- The state that vector V-D9 ends in. -/
def decoded : State :=
  { captured legalBytes with
    res := .rHeader, hv := true, ver := 0x02#8, rev := 0x05#8, flags := 0xC0#8, size := 0x00208184#32 }

/-- The next state, if there is one. -/
def nextOf : Host.Outcome State Fault Refusal → Option State
  | .next t => some t
  | .fault _ => none
  | .refused _ => none

/-! ## Decoding: words written out bit by bit (30_encoding.md R61, R65; 95_test_vectors.md section 2.8) -/

theorem test_decode_begin : decode (.command 0b0000000000#10) = .begin := by decide
theorem test_decode_begin_ignores_imm8 : decode (.command 0b0010101011#10) = .begin := by decide
theorem test_decode_push : decode (.command 0b0101001001#10) = .push 0x49#8 := by decide
theorem test_decode_valid : decode (.command 0b1000000000#10) = .valid := by decide
theorem test_decode_valid_ignores_imm8 : decode (.command 0b1011000011#10) = .valid := by decide
theorem test_decode_dec : decode (.command 0b1100000000#10) = .dec := by decide
theorem test_decode_dec_ignores_imm8 : decode (.command 0b1111111111#10) = .dec := by decide
theorem test_decode_header : decode (.header
    0b01001001010001000011001100000010000001011100000000000001000000100000001100000100#80) =
    .id3v2Header legalWord := by decide

theorem test_table_push : decodeTableWord 16 0x133 = some (.push 0x33#8) := by decide
theorem test_table_header : decodeTableWord 80 0x494433020000 = some (.id3v2Header
    ⟨0x00#8, 0x00#8, 0x00#8, 0x00#8, 0x49#8, 0x44#8, 0x33#8, 0x02#8, 0x00#8, 0x00#8⟩) := by decide
theorem test_table_refuses_eleven_bits : decodeTableWord 16 0x400 = none := by decide
theorem test_bytes_refused_by_length : decodeBytes [0x00#8] = .error (.noSuchLength 1) := by rfl
theorem test_bytes_refused_above_cw : decodeBytes [0x00#8, 0x04#8] = .error (.bitsAboveCommandWord 0x04#8) := by rfl

/-- R61: no word belongs to two rows of the opcode map. -/
theorem test_rows_do_not_overlap : commandRows.Pairwise fun r q => r.mask &&& q.mask &&& (r.pattern ^^^ q.pattern) ≠ 0#10 := by
  decide

/-! ## Well-formed header words: each check refuses an ill-formed term (R65) -/

theorem test_wf_accepts : (Instr.id3v2Header legalWord).wellFormed = true := by decide
theorem test_wf_fixed_signature :
    headerFixedBitsOk { legalWord with sig2 := 0x32#8 } = false ∧
    (Instr.id3v2Header { legalWord with sig2 := 0x32#8 }).wellFormed = false := by decide
theorem test_wf_fixed_flags :
    headerFixedBitsOk { legalWord with flags := 0xE1#8 } = false ∧
    (Instr.id3v2Header { legalWord with flags := 0xE1#8 }).wellFormed = false := by decide
theorem test_wf_fixed_size :
    headerFixedBitsOk { legalWord with sz0 := 0x80#8 } = false ∧
    (Instr.id3v2Header { legalWord with sz0 := 0x80#8 }).wellFormed = false := by decide
theorem test_wf_ver :
    headerVerOk { legalWord with ver := 0xFF#8 } = false ∧
    (Instr.id3v2Header { legalWord with ver := 0xFF#8 }).wellFormed = false := by decide
theorem test_wf_rev :
    headerRevOk { legalWord with rev := 0xFF#8 } = false ∧
    (Instr.id3v2Header { legalWord with rev := 0xFF#8 }).wellFormed = false := by decide

/-! ## The size and the flags (95_test_vectors.md sections 2.4, 2.5) -/

/-- V-S11, V-S12 and V-S13. -/
theorem test_syncsafe :
    syncSafe 0x01#8 0x02#8 0x03#8 0x04#8 = 0x00208184#32 ∧ syncSafe 0x00#8 0x0B#8 0x4E#8 0x3A#8 = 0x0002E73A#32 ∧
    syncSafe 0x40#8 0x00#8 0x00#8 0x00#8 = 0x08000000#32 := by decide

/-- V-V9 (bit 4 alone) and V-V11 (0xE1) fail, V-V12 (0xE0) passes. -/
theorem test_flags_ok : flagsOk 0x10#8 = false ∧ flagsOk 0xE1#8 = false ∧ flagsOk 0xE0#8 = true := by decide

/-! ## One step on a small state -/

/-- V-C7: `BEGIN` clears everything but `PRESENT`. -/
theorem test_begin_clears : (nextOf (exec .begin decoded)).map State.outputs =
    some ⟨true, 0#5, false, 0#3, false, 0#8, 0#8, 0#8, 0#32, false, false, false⟩ := by decide

/-- V-C4: the twentieth byte lands at address 19 and `FULL` becomes 1. -/
theorem test_push_twentieth : (nextOf (exec (.push 0xAB#8) (captured (List.replicate 19 0x00#8)))).map
    (fun t => (t.len, t.buf.readByte 19, t.full)) = some (20#5, some 0xAB#8, true) := by decide

/-- V-C5: the twenty-first byte is dropped and does not land at address 0. -/
theorem test_push_full : (nextOf (exec (.push 0xCD#8) (captured (List.replicate 20 0x00#8)))).map
    (fun t => (t.len, t.buf.readByte 0, t.full)) = some (20#5, some 0x00#8, true) := by decide

/-- V-V12: every field at its largest legal value is legal, and `VALID` builds no header. -/
theorem test_valid_true : (nextOf (exec .valid (captured
    [0x49#8, 0x44#8, 0x33#8, 0xFE#8, 0xFE#8, 0xE0#8, 0x7F#8, 0x7F#8, 0x7F#8, 0x7F#8]))).map
    (fun t => (t.res, t.hv)) = some (.rTrue, false) := by decide

/-- V-V13: nine bytes are too few, though they are a legal start. -/
theorem test_valid_short : (nextOf (exec .valid (captured
    [0x49#8, 0x44#8, 0x33#8, 0x03#8, 0x00#8, 0x00#8, 0x00#8, 0x00#8, 0x02#8]))).map
    (fun t => t.res) = some .eShort := by decide

/-- V-D9. -/
theorem test_dec_header : (nextOf (exec .dec (captured legalBytes))).map State.outputs =
    some ⟨true, 10#5, false, 3#3, true, 0x02#8, 0x05#8, 0xC0#8, 0x00208184#32, true, true, false⟩ := by decide

/-- V-D12: an illegal size byte; nothing of the record is written. -/
theorem test_dec_tag : (nextOf (exec .dec (captured
    [0x49#8, 0x44#8, 0x33#8, 0x03#8, 0x00#8, 0x00#8, 0x80#8, 0x00#8, 0x00#8, 0x00#8]))).map
    (fun t => (t.res, t.hv, t.ver, t.size)) = some (.eTag, false, 0#8, 0#32) := by decide

/-- V-D9 with the header word presented whole (log 1). -/
theorem test_header_word : (nextOf (exec (.id3v2Header legalWord) decoded)).map State.outputs =
    some ⟨true, 10#5, false, 3#3, true, 0x02#8, 0x05#8, 0xC0#8, 0x00208184#32, true, true, false⟩ := by decide

/-- V-D8 with the header word presented whole (log 1). -/
theorem test_header_word_tag : (nextOf (exec (.id3v2Header illegalWord) decoded)).map
    (fun t => (t.res, t.headerRecord)) = some (.eTag, ⟨false, 0#8, 0#8, 0#8, 0#32⟩) := by decide

/-- V-R1: reset. -/
theorem test_reset_event : (nextOf (step { decoded with port := [.reset] })).map State.outputs =
    some ⟨false, 0#5, false, 0#3, false, 0#8, 0#8, 0#8, 0#32, false, false, false⟩ := by decide

/-- V-C1 as the first step after reset, through the host's interface. -/
theorem test_withFetchWord_begin : (nextOf (step (State.reset.withFetchWord 16 0x000))).map
    (fun t => (t.present, t.port)) = some (true, []) := by decide

/-- V-D1's word as the first step after reset, through the host's interface. -/
theorem test_withFetchWord_header : (nextOf (step (State.reset.withFetchWord 80 0x49443303000000000001))).map
    (fun t => (t.res, t.size)) = some (.rHeader, 1#32) := by decide

/-- V-C1, given to the block as an input: no queue, one step a command (R16). -/
theorem test_blockStep : blockStep (.command 0x000#10) State.reset.toBlockState =
    .next { State.reset.toBlockState with present := true } := by rfl

/-! ## The written form (R73, R74) -/

theorem test_asm_push_forms :
    assembleLine "PUSH 'I' ; 0x149".toList = .ok [.push 0x49#8] ∧ assembleLine "PUSH 0xab".toList = .ok [.push 0xAB#8] ∧
    assembleLine "PUSH 255".toList = .ok [.push 0xFF#8] ∧ assembleLine "PUSH 256".toList = .error .badByte := by decide
theorem test_asm_check : assembleLine "CHECK 'I',0x44".toList = .ok [.begin, .push 0x49#8, .push 0x44#8, .valid] := by
  decide
theorem test_asm_words : assemble ["BEGIN".toList, "PUSH ';' ; a quoted semicolon".toList, "DEC".toList] =
    .ok [.command 0x000#10, .command 0x13B#10, .command 0x300#10] := by decide

/-! ## The invariants hold where the statements need them -/

theorem decoded_inv : decoded.Inv := by
  constructor <;> decide

theorem decoded_outcome : decoded.OutcomeCurrent := by
  constructor <;> decide

/-- The reset state before any word: no record, so the invariant's second clause about flags has a state. -/
theorem captured_inv : (captured legalBytes).Inv := by
  constructor <;> decide

/-! ## For every statement with hypotheses, a state and operands that meet them all -/

theorem witness_ImmediateIgnoredExceptByPush : ∃ op : BitVec 2, op ≠ 0b01#2 := ⟨0b10#2, by decide⟩

theorem witness_HeaderWordByteOrder : ∃ w : HeaderBits, w =
    0x49#8 ++ 0x44#8 ++ 0x33#8 ++ 0x02#8 ++ 0x05#8 ++ 0xC0#8 ++ 0x01#8 ++ 0x02#8 ++ 0x03#8 ++ 0x04#8 := ⟨_, rfl⟩

theorem witness_EncodeOfDecodeIsCanonical : ∃ op : BitVec 2, op ≠ 0b01#2 := ⟨0b00#2, by decide⟩

theorem witness_WrittenLinesAssembleBack_quoted : ∃ c d : Char, 32 ≤ c.toNat ∧ c.toNat ≤ 126 ∧ c.toNat = 32 ∧
    32 ≤ d.toNat ∧ d.toNat ≤ 126 ∧ d.toNat = 126 := ⟨' ', '~', by decide⟩

/-- The three written forms of a byte, and no operand at all. -/
theorem witness_PseudoInstructionsExpand :
    List.Forall₂ IsByteText ["0x49".toList, "68".toList, "'3'".toList] [0x49#8, 0x44#8, 0x33#8] ∧
    List.Forall₂ IsByteText [] [] :=
  ⟨.cons (.inl (by decide)) (.cons (.inr (.inl (by decide)))
    (.cons (.inr (.inr ⟨'3', by decide, by decide, by decide⟩)) .nil)), .nil⟩

theorem witness_SyncSafeFormulaIsExact :
    sizeOk 0x00#8 0x00#8 0x00#8 0x00#8 = true ∧ sizeOk 0x7F#8 0x7F#8 0x7F#8 0x7F#8 = true := by decide

theorem witness_SyncSafeIsConcatenationExactlyOnLegalBytes :
    sizeOk 0x7F#8 0x00#8 0x7F#8 0x7F#8 = true ∧ sizeOk 0x80#8 0x00#8 0x00#8 0x00#8 = false := by decide

theorem witness_SyncSafeIsOneToOneAndOnto :
    sizeOk 0x7F#8 0x7F#8 0x7F#8 0x7F#8 = true ∧ sizeOk 0x01#8 0x02#8 0x03#8 0x04#8 = true ∧
    268435455 < 2 ^ 28 ∧ syncSafe 0x7F#8 0x7F#8 0x7F#8 0x7F#8 = syncSafe 0x7F#8 0x7F#8 0x7F#8 0x7F#8 := by decide

theorem witness_BeginStartsAnEmptyInvocation : ∃ bs : List Byte, bs.length < 10 ∧ bs.length = 9 :=
  ⟨List.replicate 9 0x00#8, by decide⟩

theorem witness_PushCaptures_at_19 : ∃ s : State, s.present = true ∧ s.len.toNat < 20 ∧ s.len.toNat = 19 ∧
    s.pushAddress = some 19 := ⟨captured (List.replicate 19 0x00#8), by decide⟩
theorem witness_PushCaptures_at_0 : ∃ s : State, s.present = true ∧ s.pushAddress = some 0 :=
  ⟨captured [], by decide⟩
theorem witness_PushDrops_full : ∃ s : State, s.present = true ∧ 20 ≤ s.len.toNat ∧ s.len.toNat = 20 ∧
    s.pushAddress = none := ⟨captured (List.replicate 20 0x00#8), by decide⟩
theorem witness_PushDrops_absent : ∃ s : State, s.present = false ∧ s.pushAddress = none :=
  ⟨State.reset, by decide⟩

/-- The clauses of the statements on `VALID` and `DEC`, each at a boundary. -/
theorem witness_absent : ∃ s : State, s.present = false := ⟨State.reset, by decide⟩
theorem witness_short_9 : ∃ s : State, s.present = true ∧ s.len.toNat < 10 ∧ s.len.toNat = 9 :=
  ⟨captured (List.replicate 9 0x00#8), by decide⟩
theorem witness_long_10_legal : ∃ s : State, s.present = true ∧ 10 ≤ s.len.toNat ∧ s.len.toNat = 10 ∧
    legal10 s.headerWord = true := ⟨captured legalBytes, by decide⟩
theorem witness_long_20_illegal : ∃ s : State, s.present = true ∧ 10 ≤ s.len.toNat ∧ s.len.toNat = 20 ∧
    legal10 s.headerWord = false := ⟨captured (illegalBytes ++ legalBytes), by decide⟩

theorem witness_HeaderWordCapturesAndDecodes : legal10 legalWord = true ∧ legal10 illegalWord = false := by decide

theorem witness_FieldsAreBytesThreeFourFive : ∃ s t, exec .dec s = .next t ∧ t.res = .rHeader :=
  ⟨captured legalBytes, _, rfl, by decide⟩
theorem witness_FlagDecomposition_dec : ∃ s t, exec .dec s = .next t ∧ t.res = .rHeader :=
  ⟨captured legalBytes, _, rfl, by decide⟩
theorem witness_FlagDecomposition_rows :
    ∀ f ∈ [0x00#8, 0x20#8, 0x40#8, 0x60#8, 0x80#8, 0xA0#8, 0xC0#8, 0xE0#8], ∃ s : State, s.flags = f :=
  fun f _ => ⟨{ State.reset with flags := f }, rfl⟩
theorem witness_EverySizeIsAcceptedAsItIs : ∃ (n : Nat) (s : State), n < 2 ^ 28 ∧ s.present = true ∧
    10 ≤ s.len.toNat ∧ legal10 s.headerWord = true ∧ (fieldSize s.headerWord).toNat = n ∧ n = 9 :=
  ⟨9, captured [0x49#8, 0x44#8, 0x33#8, 0x04#8, 0x00#8, 0x00#8, 0x00#8, 0x00#8, 0x00#8, 0x09#8], by decide⟩
theorem witness_ValidationProperties_flags : ∃ s : State, s.present = true ∧ 10 ≤ s.len.toNat ∧
    s.loadByte 5 &&& 0x1F#8 ≠ 0#8 :=
  ⟨captured [0x49#8, 0x44#8, 0x33#8, 0x03#8, 0x00#8, 0x10#8, 0x00#8, 0x00#8, 0x00#8, 0x01#8], by decide⟩
theorem witness_ValidationProperties_signature : ∃ s : State, s.present = true ∧ 10 ≤ s.len.toNat ∧
    ¬ (s.loadByte 0 = 0x49#8 ∧ s.loadByte 1 = 0x44#8 ∧ s.loadByte 2 = 0x33#8) :=
  ⟨captured illegalBytes, by decide⟩
theorem witness_BytesTenToNineteen : ∃ s s' v v' d d' : State, s.present = true ∧ s'.present = true ∧
    10 ≤ s.len.toNat ∧ 10 ≤ s'.len.toNat ∧ (∀ a, a < 10 → s.loadByte a = s'.loadByte a) ∧ s.len ≠ s'.len ∧
    exec .valid s = .next v ∧ exec .valid s' = .next v' ∧ exec .dec s = .next d ∧ exec .dec s' = .next d' :=
  ⟨captured legalBytes, captured (legalBytes ++ [0xEE#8]), _, _, _, _, by decide, by decide, by decide, by decide,
    by decide, by decide, rfl, rfl, rfl, rfl⟩
theorem witness_BytesTenToNineteen_push : ∃ s : State, s.present = true ∧ 10 ≤ s.len.toNat ∧ s.len.toNat < 20 ∧
    s.len.toNat = 19 := ⟨captured (List.replicate 19 0x00#8), by decide⟩

/-- Events that stay in the invocation: a `PUSH`, a `VALID` and a `DEC`. -/
def stayingEvents : List PortEvent := [.present (.command 0x100#10), .present (.command 0x200#10), .present (.command 0x300#10)]

theorem witness_staying : ∃ es : List PortEvent, es ≠ [] ∧ ∀ e ∈ es, e.keepsInvocation = true :=
  ⟨stayingEvents, by decide, by decide⟩

theorem witness_DecodingIsIdempotent_long : ∃ (es : List PortEvent) (s u : State), (∀ e ∈ es, e.keepsInvocation = true) ∧
    runEvents es s.afterDec = .next u ∧ 10 ≤ s.len.toNat := ⟨stayingEvents, captured legalBytes, _, by decide, rfl, by decide⟩
theorem witness_DecodingIsIdempotent_short : ∃ (es : List PortEvent) (s u : State), (∀ e ∈ es, e.keepsInvocation = true) ∧
    runEvents es s.afterDec = .next u ∧ u.len.toNat < 10 ∧ u.len.toNat = 9 :=
  ⟨stayingEvents, captured (List.replicate 8 0x00#8), _, by decide, rfl, by decide⟩
theorem witness_DecodingIsIdempotent_function : ∃ s s' t t' : State, s.present = s'.present ∧
    (10 ≤ s.len.toNat ↔ 10 ≤ s'.len.toNat) ∧ (∀ a, a < 10 → s.loadByte a = s'.loadByte a) ∧ s ≠ s' ∧
    exec .dec s = .next t ∧ exec .dec s' = .next t' :=
  ⟨captured legalBytes, decoded, _, _, by decide, by decide, by decide, by decide, rfl, rfl⟩
theorem witness_DecodingIsIdempotent_invocations : ∃ (bs : List Byte) (s s' t t' : State), s ≠ s' ∧
    runEvents (presentAll (parseInstrs bs)) s = .next t ∧ runEvents (presentAll (parseInstrs bs)) s' = .next t' :=
  ⟨[0x49#8], State.reset, decoded, _, _, by decide, rfl, rfl⟩

theorem witness_FailureCausesAreExact : ∃ s v d t u : State, exec .valid s = .next v ∧ exec .dec s = .next d ∧
    exec .begin s = .next t ∧ exec (.push 0x00#8) s = .next u ∧ v.res = .rFalse ∧ d.res = .eTag :=
  ⟨captured illegalBytes, _, _, _, _, rfl, rfl, rfl, rfl, by decide, by decide⟩
theorem witness_RaisingAFailure : ∃ s v d : State, exec .valid s = .next v ∧ v.res.isFailure = true ∧
    exec .dec s = .next d ∧ d.res.isFailure = true := ⟨captured [], _, _, rfl, by decide, rfl, by decide⟩
theorem witness_Retry_repeat : ∃ s t u v w : State, exec .valid s = .next t ∧ exec .valid t = .next u ∧
    exec .dec s = .next v ∧ exec .dec v = .next w := ⟨captured illegalBytes, _, _, _, _, rfl, rfl, rfl, rfl⟩
theorem witness_Retry_absent : ∃ (es : List PortEvent) (s u v d : State), s.present = false ∧
    (∀ e ∈ es, e.keepsInvocation = true) ∧ runEvents es s = .next u ∧ exec .valid u = .next v ∧ exec .dec u = .next d :=
  ⟨stayingEvents, State.reset, _, _, _, by decide, by decide, rfl, rfl, rfl⟩
theorem witness_Retry_tag : ∃ (es : List PortEvent) (s t u d : State), exec .dec s = .next t ∧ t.res = .eTag ∧
    (∀ e ∈ es, e.keepsInvocation = true) ∧ runEvents es t = .next u ∧ exec .dec u = .next d :=
  ⟨stayingEvents, captured illegalBytes, _, _, _, rfl, by decide, by decide, rfl, rfl⟩
theorem witness_NegativeAnswerIsNoFailure : ∃ s : State, s.present = true ∧ 10 ≤ s.len.toNat ∧
    legal10 s.headerWord = false := ⟨captured illegalBytes, by decide⟩

theorem witness_StepRuns_word : ∃ (s : State) (w : PortWord) (rest : List PortEvent), s.port = .present w :: rest :=
  ⟨{ State.reset with port := [.present (.command 0x000#10), .reset] }, _, _, rfl⟩
theorem witness_StepRuns_reset : ∃ (s : State) (rest : List PortEvent), s.port = .reset :: rest :=
  ⟨{ decoded with port := [.reset] }, _, rfl⟩
theorem witness_StepRuns_idle : ∃ s : State, s.port = [] := ⟨State.reset, rfl⟩
theorem witness_StepRuns_table : ∃ (nbits w : Nat) (i : Instr), decodeTableWord nbits w = some i :=
  ⟨16, 0x3FF, .dec, by decide⟩
theorem witness_ResetEvent_only : ∃ (e : PortEvent) (s t : State), handleEvent e s = .next t ∧ s.present = true ∧
    t.present = false := ⟨.reset, decoded, _, rfl, by decide, by decide⟩
theorem witness_FlagOutputs_push_valid : ∃ s t u : State, exec (.push 0x00#8) s = .next t ∧ exec .valid s = .next u :=
  ⟨decoded, _, _, rfl, rfl⟩
theorem witness_FlagOutputs_noRecord : ∃ s : State, s.Inv ∧ s.hv = false := ⟨captured legalBytes, captured_inv, rfl⟩
theorem witness_QueueIsHandledInOrder : ∃ (es rest : List PortEvent) (s : State), s.port = es ++ rest ∧ es ≠ [] :=
  ⟨stayingEvents, [.reset], { State.reset with port := stayingEvents ++ [.reset] }, rfl, by decide⟩

theorem witness_InvariantKeptByEveryStep : ∃ s t : State, s.Inv ∧ step s = .next t := ⟨decoded, _, decoded_inv, rfl⟩
theorem witness_OutcomeNeverGoesStaleButShort : ∃ s t : State, s.Inv ∧ s.OutcomeCurrent ∧ step s = .next t :=
  ⟨decoded, _, decoded_inv, decoded_outcome, rfl⟩
theorem witness_CapturedBytesNeverChange : ∃ (es : List PortEvent) (s : State), (∀ e ∈ es, e.keepsInvocation = true) ∧
    ∃ a, a < s.len.toNat ∧ a = 9 := ⟨stayingEvents, decoded, by decide, 9, by decide, rfl⟩
theorem witness_HeaderRecordNeverChanges : ∃ (es : List PortEvent) (s : State), s.Inv ∧ s.hv = true ∧
    ∀ e ∈ es, e.keepsInvocation = true := ⟨stayingEvents, decoded, decoded_inv, rfl, by decide⟩
theorem witness_OnlyCapture_push : ∃ (i : Instr) (s t : State) (a : Nat), exec i s = .next t ∧
    t.buf.readByte a ≠ s.buf.readByte a ∧ a = 19 :=
  ⟨.push 0xAB#8, captured (List.replicate 19 0x00#8), _, 19, rfl, by decide, rfl⟩
theorem witness_OnlyCapture_header : ∃ (h : HeaderWord) (s t : State) (a : Nat), exec (.id3v2Header h) s = .next t ∧
    t.buf.readByte a ≠ s.buf.readByte a ∧ a = 9 := ⟨legalWord, State.reset, _, 9, rfl, by decide, rfl⟩
theorem witness_LenDecreases : ∃ (s t : State) (e : PortEvent), handleEvent e s = .next t ∧ t.len.toNat < s.len.toNat :=
  ⟨decoded, _, .reset, rfl, by decide⟩
theorem witness_RecordIsWritten_set : ∃ (i : Instr) (s t : State), exec i s = .next t ∧ s.hv = false ∧ t.hv = true :=
  ⟨.dec, captured legalBytes, _, rfl, by decide, by decide⟩
theorem witness_RecordIsWritten_kept : ∃ s t u : State, exec .valid s = .next t ∧ exec (.push 0x00#8) s = .next u :=
  ⟨decoded, _, _, rfl, rfl⟩
theorem witness_RecordIsWritten_cleared : ∃ s t d : State, exec .begin s = .next t ∧ exec .dec s = .next d ∧
    d.res ≠ .rHeader := ⟨captured illegalBytes, _, _, rfl, rfl, by decide⟩
theorem witness_OutcomesComeFrom : ∀ r : Res, ∃ (i : Instr) (s t : State), exec i s = .next t ∧ t.res ≠ s.res ∧ t.res = r
  | .rNone => ⟨.begin, decoded, _, rfl, by decide, by decide⟩
  | .rTrue => ⟨.valid, captured legalBytes, _, rfl, by decide, by decide⟩
  | .rFalse => ⟨.valid, captured illegalBytes, _, rfl, by decide, by decide⟩
  | .rHeader => ⟨.id3v2Header legalWord, State.reset, _, rfl, by decide, by decide⟩
  | .eAbsent => ⟨.dec, State.reset, _, rfl, by decide, by decide⟩
  | .eShort => ⟨.valid, captured [], _, rfl, by decide, by decide⟩
  | .eTag => ⟨.dec, captured illegalBytes, _, rfl, by decide, by decide⟩
theorem witness_CellsAboveLen : ∃ s s' : State, SameBelowLen s s' ∧ s ≠ s' :=
  ⟨captured [], { captured [] with buf := [(0, 0x49#8)] }, ⟨rfl, by decide⟩, by decide⟩
theorem witness_Parse_short : ∃ bs : List Byte, bs.length < 10 ∧ bs.length = 9 := ⟨List.replicate 9 0x00#8, by decide⟩
theorem witness_Parse_long : ∃ (bs : List Byte) (h : HeaderWord) (rest : List Byte), bs = headerToBytes h ++ rest ∧
    legal10 h = true ∧ bs.length = 11 := ⟨legalBytes ++ [0xEE#8], legalWord, [0xEE#8], rfl, by decide, by decide⟩
theorem witness_Parse_illegal : ∃ (bs : List Byte) (h : HeaderWord) (rest : List Byte), bs = headerToBytes h ++ rest ∧
    legal10 h = false ∧ bs.length = 10 := ⟨illegalBytes, illegalWord, [], rfl, by decide, by decide⟩

end Sys2Proof.Tests
end

section
/-! The flag outputs (spec/10_state.md R30): a single bit of a word read through its mask, the three flags by their
masks, and the flags of a state whose `FLAGS` is zero. -/

namespace Sys2Proof.Machine

/-- A bit of a word is set exactly when the mask of that bit alone leaves something. -/
theorem getLsbD_iff_and_twoPow_ne_zero {w i : Nat} (x : BitVec w) (hi : i < w) :
    x.getLsbD i = true ↔ x &&& BitVec.twoPow w i ≠ 0#w := by
  have hmask : BitVec.twoPow w i ≠ 0#w := fun h => by
    simpa [BitVec.getLsbD_twoPow, hi] using congrArg (·.getLsbD i) h
  rw [BitVec.and_twoPow]
  cases x.getLsbD i <;> simp [hmask]

theorem unsyncOf_iff_mask (f : Byte) : unsyncOf f = true ↔ f &&& 0x80#8 ≠ 0#8 :=
  getLsbD_iff_and_twoPow_ne_zero f (i := 7) (by decide)

theorem exthdrOf_iff_mask (f : Byte) : exthdrOf f = true ↔ f &&& 0x40#8 ≠ 0#8 :=
  getLsbD_iff_and_twoPow_ne_zero f (i := 6) (by decide)

theorem experOf_iff_mask (f : Byte) : experOf f = true ↔ f &&& 0x20#8 ≠ 0#8 :=
  getLsbD_iff_and_twoPow_ne_zero f (i := 5) (by decide)

theorem State.flagOutputs_zero {s : State} (h : s.flags = 0#8) :
    s.unsync = false ∧ s.exthdr = false ∧ s.exper = false := by
  simp [State.unsync, State.exthdr, State.exper, unsyncOf, exthdrOf, experOf, h]

theorem State.Inv.flags_eq_zero {s : State} (hs : s.Inv) (hv : s.hv = false) : s.flags = 0#8 := by
  obtain ⟨-, -, hflags, -⟩ := hs.noRecord hv
  exact hflags

theorem exec_push_flags {b : Byte} {s t : State} (h : exec (.push b) s = .next t) : t.flags = s.flags := by
  obtain rfl : s.afterPush b = t := by simpa [exec_eq_afterInstr, State.afterInstr_push] using h
  exact State.afterPush_flags s b

theorem exec_valid_flags {s t : State} (h : exec .valid s = .next t) : t.flags = s.flags := by
  obtain rfl : s.afterValid = t := by simpa [exec_eq_afterInstr, State.afterInstr_valid] using h
  exact State.afterValid_flags s

/-- Settles O40: the outputs are bits of `FLAGS` by their masks, `PUSH` and `VALID` write no `FLAGS`, and `FLAGS` is
zero at reset and, by I3, wherever no header exists. -/
theorem flagOutputsAreViewsOfFlags : Obligations.FlagOutputsAreViewsOfFlags := by
  unfold Obligations.FlagOutputsAreViewsOfFlags
  refine ⟨fun s => ?masks, fun b s t u hpush hvalid => ?frame, ?reset, fun s hs hv => ?noHeader⟩
  case masks => exact ⟨unsyncOf_iff_mask s.flags, exthdrOf_iff_mask s.flags, experOf_iff_mask s.flags⟩
  case frame => exact ⟨exec_push_flags hpush, exec_valid_flags hvalid⟩
  case reset => exact State.flagOutputs_zero rfl
  case noHeader => exact State.flagOutputs_zero (hs.flags_eq_zero hv)

end Sys2Proof.Machine
end

section
/-! Bytes 10 to 19 of the buffer (spec/20_memory.md R48): what `VALID` and `DEC` answer is a function of the sequence's
own failure and of the captured header word, and neither reads a cell from address 10 on. -/

namespace Sys2Proof.Machine

/-- What `exec` answers is the state after the instruction. -/
theorem exec_eq_next_iff {i : Instr} {s t : State} : exec i s = .next t ↔ s.afterInstr i = t := by
  rw [exec_eq_afterInstr, Host.Outcome.next.injEq]

/-- A capturing `PUSH`, by the load at its address. -/
theorem State.afterPush_loadByte_len {s : State} (b : Byte) (hp : s.present = true) (hl : s.len.toNat < Config.cap) :
    (s.afterPush b).loadByte s.len.toNat = b := by
  obtain ⟨-, hread⟩ := State.afterPush_reads b hp hl
  exact State.loadByte_of_some ((hread _).trans (if_pos rfl))

theorem State.afterValid_res_congr {s t : State} (hi : s.inputFailure = t.inputFailure)
    (hw : s.headerWord = t.headerWord) : s.afterValid.res = t.afterValid.res := by
  rw [State.afterValid_res, State.afterValid_res, hi, hw]

theorem State.afterDec_res_congr {s t : State} (hi : s.inputFailure = t.inputFailure)
    (hw : s.headerWord = t.headerWord) : s.afterDec.res = t.afterDec.res := by
  rw [State.afterDec_res, State.afterDec_res, State.decFailure_congr hi hw]

theorem State.afterDec_record_congr {s t : State} (hi : s.inputFailure = t.inputFailure)
    (hw : s.headerWord = t.headerWord) : s.afterDec.headerRecord = t.afterDec.headerRecord := by
  rw [State.afterDec_record, State.afterDec_record, State.decFailure_congr hi hw, hw]

/-- Settles O30: a `PUSH` at `LEN` of 10 to 19 stores its byte there like any other; with ten bytes held, neither
sequence fails of itself and the header words are equal, so the outcomes and the records are. -/
theorem bytesTenToNineteenInfluenceNothing : Obligations.BytesTenToNineteenInfluenceNothing := by
  unfold Obligations.BytesTenToNineteenInfluenceNothing
  refine ⟨fun b s hp _ hl => ?captured, fun s s' v v' d d' hp hp' hl hl' hbytes hv hv' hd hd' => ?noInfluence⟩
  case captured =>
    obtain ⟨hlen, -⟩ := State.afterPush_reads b hp hl
    exact ⟨s.afterPush b, exec_eq_afterInstr (.push b) s, State.afterPush_loadByte_len b hp hl, hlen⟩
  case noInfluence =>
    obtain rfl : s.afterValid = v := exec_eq_next_iff.mp hv
    obtain rfl : s'.afterValid = v' := exec_eq_next_iff.mp hv'
    obtain rfl : s.afterDec = d := exec_eq_next_iff.mp hd
    obtain rfl : s'.afterDec = d' := exec_eq_next_iff.mp hd'
    have hi : s.inputFailure = s'.inputFailure :=
      (State.inputFailure_eq_none.mpr ⟨hp, hl⟩).trans (State.inputFailure_eq_none.mpr ⟨hp', hl'⟩).symm
    have hw : s.headerWord = s'.headerWord := State.headerWord_congr hbytes
    exact ⟨State.afterValid_res_congr hi hw, State.afterDec_res_congr hi hw, State.afterDec_record_congr hi hw⟩

end Sys2Proof.Machine
end

section
/-! The opcode map (spec/30_encoding.md R60, R61): a command word is its two fields side by side, the mask `0x300` keeps
`op` and clears `imm8`, and `op` alone says which command the decoder reads. -/

namespace Sys2Proof

/-- A command word is its two fields, `op` above `imm8` (R60). -/
theorem commandWord_opField_imm8Field (cw : CommandWord) : commandWord (opField cw) (imm8Field cw) = cw :=
  BitVec.extractLsb'_append_extractLsb' (w := 2) (len := 8)

@[simp] theorem opField_commandWord (op : BitVec 2) (b : Byte) : opField (commandWord op b) = op :=
  BitVec.extractLsb'_append_eq_left

/-- The mask of the opcode map keeps `op` and clears `imm8`. -/
theorem commandWord_and_mask (op : BitVec 2) (b : Byte) : commandWord op b &&& 0x300#10 = commandWord op 0#8 :=
  calc commandWord op b &&& 0x300#10
    _ = (op &&& 0b11#2) ++ (b &&& 0#8) := BitVec.and_append (x₂ := 0b11#2) (y₂ := 0#8)
    _ = op ++ 0#8 := congrArg₂ (· ++ ·) (BitVec.and_allOnes (w := 2)) BitVec.and_zero

/-- A word matches the pattern with `op` on top exactly when that is its `op` (R61). -/
theorem and_mask_eq_iff_opField (cw : CommandWord) (op : BitVec 2) :
    cw &&& 0x300#10 = commandWord op 0#8 ↔ opField cw = op := by
  rw [← commandWord_opField_imm8Field cw, commandWord_and_mask, opField_commandWord]
  exact BitVec.append_left_inj 0#8

/-- What the decoder reads from a command word, by the four values of `op` (R61, R62). -/
theorem decodeCommand_cases (cw : CommandWord) :
    (opField cw = 0b00#2 ∧ decodeCommand cw = .begin) ∨
    (opField cw = 0b01#2 ∧ decodeCommand cw = .push (imm8Field cw)) ∨
    (opField cw = 0b10#2 ∧ decodeCommand cw = .valid) ∨
    (opField cw = 0b11#2 ∧ decodeCommand cw = .dec) := by
  have hop : ∀ op : BitVec 2, op = 0b00#2 ∨ op = 0b01#2 ∨ op = 0b10#2 ∨ op = 0b11#2 := by decide
  rcases hop (opField cw) with h | h | h | h <;> simp [decodeCommand, h]

/-- Each command is decoded at its own value of `op` and at no other. -/
theorem decodeCommand_eq_iff_opField (cw : CommandWord) :
    (decodeCommand cw = .begin ↔ opField cw = 0b00#2) ∧
    (decodeCommand cw = .push (imm8Field cw) ↔ opField cw = 0b01#2) ∧
    (decodeCommand cw = .valid ↔ opField cw = 0b10#2) ∧
    (decodeCommand cw = .dec ↔ opField cw = 0b11#2) := by
  rcases decodeCommand_cases cw with ⟨hop, hd⟩ | ⟨hop, hd⟩ | ⟨hop, hd⟩ | ⟨hop, hd⟩ <;> simp [hop, hd]

/-- The canonical word of `PUSH` is its pattern plus the byte (R61). -/
theorem commandWord_push_eq_add (b : Byte) : commandWord 0b01#2 b = 0x100#10 + b.setWidth 10 :=
  calc commandWord 0b01#2 b
    _ = (0b01#2 ++ 0#8) + (0#2 ++ b) := BitVec.append_zero_add_zero_append.symm
    _ = 0x100#10 + b.setWidth 10 := congrArg (0x100#10 + ·) (BitVec.setWidth_eq_append (by decide)).symm

/-- Settles O2: the decoder reads a command by `op`, and the mask compares exactly `op`; the canonical words are the
encoder's fields side by side. -/
theorem opcodeMapByMatchAndMask : Obligations.OpcodeMapByMatchAndMask := by
  unfold Obligations.OpcodeMapByMatchAndMask
  refine ⟨fun cw => ?decoded, rfl, fun b => ?canonicalPush, rfl, rfl⟩
  case decoded =>
    have hmask := and_mask_eq_iff_opField cw
    obtain ⟨hbegin, hpush, hvalid, hdec⟩ := decodeCommand_eq_iff_opField cw
    exact ⟨hbegin.trans (hmask 0b00#2).symm, hpush.trans (hmask 0b01#2).symm, hvalid.trans (hmask 0b10#2).symm,
      hdec.trans (hmask 0b11#2).symm⟩
  case canonicalPush => exact congrArg PortWord.command (commandWord_push_eq_add b)

end Sys2Proof
end

section
/-! The header word's byte order (spec/30_encoding.md R64): the ten fields of the ten bytes laid side by side are those
bytes again, each cut out at its own place. -/

namespace Sys2Proof

/-- No byte of a header word is lost or moved: a cut at or above a byte on the right passes it by, and the cut at 0 is
that byte. The width of a byte is given because a literal width such as 80 does not split into summands by itself. -/
@[simp] theorem headerOfBits_headerToBits (h : HeaderWord) : headerOfBits (headerToBits h) = h := by
  simp [headerOfBits, headerByte, headerToBits, BitVec.extractLsb'_append_eq_of_le (w := 8),
    BitVec.extractLsb'_append_eq_right (w' := 8)]

/-- Settles O4: the word of a state and the encoder's word are `headerToBits` of the ten bytes, whose byte `i` is the
field that `headerOfBits` cuts out at `72 - 8*i`. -/
theorem headerWordByteOrder : Obligations.HeaderWordByteOrder := by
  unfold Obligations.HeaderWordByteOrder
  refine ⟨fun s => rfl, fun b0 b1 b2 b3 b4 b5 b6 b7 b8 b9 => ⟨rfl, ?slices⟩⟩
  case slices =>
    rintro _ rfl
    exact HeaderWord.mk.inj (headerOfBits_headerToBits ⟨b0, b1, b2, b3, b4, b5, b6, b7, b8, b9⟩)

end Sys2Proof
end

section
/-! A feed presented at the port (spec/30_encoding.md R74 `FEED`) and the capture of an empty invocation
(spec/40_capture.md R81): presented instructions are decoded to themselves, so the events of a feed are the feed; while
fewer than ten bytes are held, `VALID` and `DEC` report that the sequence is too short. -/

namespace Sys2Proof

@[simp] theorem imm8Field_commandWord (op : BitVec 2) (b : Byte) : imm8Field (commandWord op b) = b :=
  BitVec.extractLsb'_append_eq_right

/-- A presented instruction is decoded to itself: a command by its two fields, a header word by its ten bytes. -/
@[simp] theorem decode_encode (i : Instr) : decode (encode i) = i := by
  cases i with
  | begin => rfl
  | push b => simp [encode, decode, decodeCommand]
  | valid => rfl
  | dec => rfl
  | id3v2Header h => exact congrArg Instr.id3v2Header (headerOfBits_headerToBits h)

end Sys2Proof

namespace Sys2Proof.Machine

theorem State.afterEvents_presentAll_cons (s : State) (i : Instr) (is : List Instr) :
    s.afterEvents (presentAll (i :: is)) = (s.afterInstr i).afterEvents (presentAll is) := by
  simp [presentAll, State.afterEvents, State.afterEvent_present]

theorem State.afterEvents_presentAll_feedInstrs (s : State) (bs : List Byte) :
    s.afterEvents (presentAll (feedInstrs bs)) = s.afterFeed bs := by
  induction bs generalizing s with
  | nil => rfl
  | cons b bs ih => exact (s.afterEvents_presentAll_cons (.push b) (feedInstrs bs)).trans (ih (s.afterPush b))

theorem runEvents_presentAll_feedInstrs (s : State) (bs : List Byte) :
    runEvents (presentAll (feedInstrs bs)) s = .next (s.afterFeed bs) := by
  rw [runEvents_eq_afterEvents, State.afterEvents_presentAll_feedInstrs]

/-- `VALID` reports the failure of the sequence itself, if there is one (R95, R123). -/
theorem State.afterValid_res_of_inputFailure {s : State} {c : FailureCause} (h : s.inputFailure = some c) :
    s.afterValid.res = c.outcome := by
  rw [State.afterValid_res, h]

/-- `DEC` reports the failure of the sequence itself, if there is one (R106, R123). -/
theorem State.afterDec_res_of_inputFailure {s : State} {c : FailureCause} (h : s.inputFailure = some c) :
    s.afterDec.res = c.outcome := by
  have hd : s.decFailure = some c := by simp [State.decFailure, h]
  rw [State.afterDec_res, hd]

/-- A present sequence that a feed leaves with fewer than ten bytes is too short (R121). -/
theorem State.afterFeed_inputFailure_short {s : State} {bs : List Byte} (hp : s.present = true)
    (hl : s.len.toNat + bs.length < 10) : (s.afterFeed bs).inputFailure = some .short := by
  obtain ⟨hpresent, -⟩ := s.afterFeed_unwritten bs
  have hcap : s.len.toNat ≤ 20 := by omega
  obtain ⟨hlen, -⟩ := s.afterFeed_reads bs hp hcap
  have hshort : (s.afterFeed bs).len.toNat < 10 := by omega
  exact State.inputFailure_eq_short.mpr ⟨hpresent.trans hp, hshort⟩

/-- A second `BEGIN` changes nothing (R81). -/
theorem State.afterBegin_afterBegin (s : State) : s.afterBegin.afterBegin = s.afterBegin := rfl

/-- Settles O19: `BEGIN` writes each element but `BUF` with a constant, so the registers are read off and a second
`BEGIN` writes them again; a feed of fewer than ten bytes then leaves the sequence too short. -/
theorem beginStartsAnEmptyInvocation : Obligations.BeginStartsAnEmptyInvocation := by
  unfold Obligations.BeginStartsAnEmptyInvocation
  intro s
  obtain ⟨hunsync, hexthdr, hexper⟩ := State.flagOutputs_zero (s := s.afterBegin) rfl
  refine ⟨s.afterBegin, exec_eq_afterInstr .begin s, rfl, rfl, rfl, rfl, rfl, rfl, rfl, rfl, hunsync, hexthdr, hexper,
    rfl, fun a => rfl, s.afterBegin_port, ?again, rfl, fun bs hbs => ?short⟩
  case again => exact exec_eq_next_iff.mpr s.afterBegin_afterBegin
  case short =>
    have hshort : (s.afterBegin.afterFeed bs).inputFailure = some .short :=
      State.afterFeed_inputFailure_short s.afterBegin_present (by simpa using hbs)
    exact ⟨s.afterBegin.afterFeed bs, _, _, runEvents_presentAll_feedInstrs s.afterBegin bs,
      exec_eq_afterInstr .valid _, State.afterValid_res_of_inputFailure hshort,
      exec_eq_afterInstr .dec _, State.afterDec_res_of_inputFailure hshort⟩

end Sys2Proof.Machine
end

section
/-! The capture of one byte (spec/40_capture.md R82): the store address of `PUSH`, and the output `FULL` after it. -/

namespace Sys2Proof.Machine

/-- The output `FULL` (R31). -/
theorem State.full_iff {s : State} : s.full = true ↔ s.len.toNat = 20 := by
  simp [State.full]

/-- The byte that fills the buffer is the one captured at 19. -/
theorem State.afterPush_full_iff {s : State} (b : Byte) (hp : s.present = true) (hl : s.len.toNat < Config.cap) :
    (s.afterPush b).full = true ↔ s.len.toNat = 19 := by
  obtain ⟨hlen, -⟩ := State.afterPush_reads b hp hl
  rw [State.full_iff, hlen]
  omega

/-- Settles O20: an address means a present sequence below 20, where `PUSH` captures at `LEN`; no address means that
it drops the byte. -/
theorem pushCapturesAtLenOrDoesNothing : Obligations.PushCapturesAtLenOrDoesNothing := by
  unfold Obligations.PushCapturesAtLenOrDoesNothing
  refine fun b s => ⟨fun hp hl => ?address, State.pushAddress_eq_none.mpr, fun a ha => ?captures, fun hnone => ?drops⟩
  case address => exact State.pushAddress_eq_some.mpr ⟨hp, hl, rfl⟩
  case captures =>
    obtain ⟨hp, hl, rfl⟩ := State.pushAddress_eq_some.mp ha
    obtain ⟨hlen, hread⟩ := State.afterPush_reads b hp hl
    exact ⟨s.afterPush b, exec_eq_afterInstr (.push b) s, (hread _).trans (if_pos rfl),
      fun c hc => (hread c).trans (if_neg hc), hlen, State.afterPush_full_iff b hp hl, s.afterPush_present b,
      s.afterPush_res b, s.afterPush_record b, s.afterPush_port b⟩
  case drops => exact exec_eq_next_iff.mpr (State.afterPush_drops b (State.pushAddress_eq_none.mp hnone))

end Sys2Proof.Machine
end

section
/-! The four conditions on a header word (spec/41_validate.md R90 to R93): each test of the model, byte by byte, in
every form that the spec gives it. -/

namespace Sys2Proof.Machine

/-! ## The signature, and version and revision (R90, R91) -/

theorem sigOk_iff {b0 b1 b2 : Byte} : sigOk b0 b1 b2 = true ↔ b0 = 0x49#8 ∧ b1 = 0x44#8 ∧ b2 = 0x33#8 := by
  simp [sigOk, and_assoc]

theorem verOk_iff_toNat_lt {b3 b4 : Byte} : verOk b3 b4 = true ↔ b3.toNat < 0xFF ∧ b4.toNat < 0xFF := by
  simp [verOk, BitVec.ult]

/-- The reserved value is the greatest byte, so that below it is the same as other than it. -/
theorem verOk_iff_ne {b3 b4 : Byte} : verOk b3 b4 = true ↔ b3 ≠ 0xFF#8 ∧ b4 ≠ 0xFF#8 := by
  have hbelow (b : Byte) : b.ult 0xFF#8 = true ↔ b ≠ 0xFF#8 :=
    BitVec.ult_iff_lt.trans (BitVec.lt_allOnes_iff (w := 8))
  rw [verOk, Bool.and_eq_true, hbelow, hbelow]

/-- Settles O12: three comparisons with the bytes of `SIG`, which the lower-case letters fail. -/
theorem signatureCheckIsExact : Obligations.SignatureCheckIsExact := by
  unfold Obligations.SignatureCheckIsExact
  exact ⟨fun _ _ _ => sigOk_iff, rfl⟩

/-- Settles O13: unsigned comparison with 0xFF, the greatest byte. -/
theorem versionAndRevisionBelowFF : Obligations.VersionAndRevisionBelowFF := by
  unfold Obligations.VersionAndRevisionBelowFF
  exact fun _ _ => ⟨verOk_iff_toNat_lt, verOk_iff_ne⟩

/-! ## The flags byte (R92) -/

/-- The three bits of a flags byte that may be set. -/
def flagBits (b : Byte) : BitVec 3 := b.extractLsb' 5 3

/-- The five bits of a flags byte that must be clear. -/
def lowBits (b : Byte) : BitVec 5 := b.extractLsb' 0 5

theorem flagBits_append_lowBits (b : Byte) : flagBits b ++ lowBits b = b :=
  BitVec.extractLsb'_append_extractLsb' (w := 3) (len := 5)

/-- `FLAGS_MASK` keeps the flag bits and clears the low ones. -/
theorem and_flagsMask (b : Byte) : b &&& 0xE0#8 = flagBits b ++ 0#5 :=
  calc b &&& 0xE0#8
    _ = (flagBits b ++ lowBits b) &&& 0xE0#8 := by rw [flagBits_append_lowBits]
    _ = (flagBits b &&& 0b111#3) ++ (lowBits b &&& 0#5) := BitVec.and_append (x₂ := 0b111#3) (y₂ := 0#5)
    _ = flagBits b ++ 0#5 := congrArg₂ (· ++ ·) (BitVec.and_allOnes (w := 3)) BitVec.and_zero

/-- The complement of `FLAGS_MASK` keeps the low bits and clears the flag bits. -/
theorem and_lowMask (b : Byte) : b &&& 0x1F#8 = 0#3 ++ lowBits b :=
  calc b &&& 0x1F#8
    _ = (flagBits b ++ lowBits b) &&& 0x1F#8 := by rw [flagBits_append_lowBits]
    _ = (flagBits b &&& 0#3) ++ (lowBits b &&& 0x1F#5) := BitVec.and_append (x₂ := 0#3) (y₂ := 0x1F#5)
    _ = 0#3 ++ lowBits b := congrArg₂ (· ++ ·) BitVec.and_zero (BitVec.and_allOnes (w := 5))

theorem flagsOk_iff_and_flagsMask {b : Byte} : flagsOk b = true ↔ b &&& 0xE0#8 = b := beq_iff_eq

theorem flagsOk_iff_lowBits {b : Byte} : flagsOk b = true ↔ lowBits b = 0#5 := by
  calc flagsOk b = true
    _ ↔ flagBits b ++ 0#5 = flagBits b ++ lowBits b := by
      rw [flagsOk_iff_and_flagsMask, and_flagsMask, flagBits_append_lowBits]
    _ ↔ 0#5 = lowBits b := BitVec.append_right_inj (flagBits b)
    _ ↔ lowBits b = 0#5 := eq_comm

theorem flagsOk_iff_and_lowMask {b : Byte} : flagsOk b = true ↔ b &&& 0x1F#8 = 0x00#8 := by
  rw [flagsOk_iff_lowBits, and_lowMask]
  exact (BitVec.append_right_inj 0#3).symm

/-- The eight flags bytes that pass (R92). -/
def legalFlags : List Byte := [0x00#8, 0x20#8, 0x40#8, 0x60#8, 0x80#8, 0xA0#8, 0xC0#8, 0xE0#8]

/-- The bytes whose low bits are clear are the values of the three flag bits. -/
theorem lowBits_eq_zero_iff_mem {b : Byte} : lowBits b = 0#5 ↔ b ∈ legalFlags := by
  have hlisted : ∀ f : BitVec 3, f ++ 0#5 ∈ legalFlags := by decide
  have hclear : ∀ c ∈ legalFlags, lowBits c = 0#5 := by decide
  refine ⟨fun hlow => ?_, hclear b⟩
  rw [← flagBits_append_lowBits b, hlow]
  exact hlisted (flagBits b)

/-- Settles O14: each form says that the low five bits are clear. -/
theorem flagsLegalityEightValues : Obligations.FlagsLegalityEightValues := by
  unfold Obligations.FlagsLegalityEightValues
  exact fun _ => ⟨flagsOk_iff_and_flagsMask, flagsOk_iff_and_lowMask,
    flagsOk_iff_lowBits.trans lowBits_eq_zero_iff_mem⟩

/-! ## The size bytes (R93) -/

theorem sizeByteOk_iff_toNat_lt {b : Byte} : sizeByteOk b = true ↔ b.toNat < 0x80 := by
  simp [sizeByteOk, BitVec.ult]

/-- The limit is the weight of bit 7. -/
theorem sizeByteOk_iff_bit7 {b : Byte} : sizeByteOk b = true ↔ b.getLsbD 7 = false := by
  rw [sizeByteOk_iff_toNat_lt, ← BitVec.msb_eq_getLsbD_last b, BitVec.msb_eq_false_iff_two_mul_lt]
  omega

theorem sizeOk_iff {b6 b7 b8 b9 : Byte} : sizeOk b6 b7 b8 b9 = true ↔
    sizeByteOk b6 = true ∧ sizeByteOk b7 = true ∧ sizeByteOk b8 = true ∧ sizeByteOk b9 = true := by
  simp [sizeOk, and_assoc]

/-- Settles O15: one unsigned comparison a byte, and below 0x80 is bit 7 clear. -/
theorem sizeBytesBelowEighty : Obligations.SizeBytesBelowEighty := by
  unfold Obligations.SizeBytesBelowEighty
  refine fun b6 b7 b8 b9 => ⟨?bound, ?bit7⟩
  case bound => simp only [sizeOk_iff, sizeByteOk_iff_toNat_lt]
  case bit7 => simp only [sizeOk_iff, sizeByteOk_iff_bit7]

end Sys2Proof.Machine
end

section
/-! `Legal10` (spec/41_validate.md R94) as the match and mask of the header word (spec/30_encoding.md R65): the mask
tests each of the ten bytes by a byte of its own. -/

namespace Sys2Proof

/-- Two header words masked with each other, byte by byte. -/
def HeaderWord.and (h m : HeaderWord) : HeaderWord where
  sig0 := h.sig0 &&& m.sig0
  sig1 := h.sig1 &&& m.sig1
  sig2 := h.sig2 &&& m.sig2
  ver := h.ver &&& m.ver
  rev := h.rev &&& m.rev
  flags := h.flags &&& m.flags
  sz3 := h.sz3 &&& m.sz3
  sz2 := h.sz2 &&& m.sz2
  sz1 := h.sz1 &&& m.sz1
  sz0 := h.sz0 &&& m.sz0

theorem headerToBits_and (h m : HeaderWord) : headerToBits (h.and m) = headerToBits h &&& headerToBits m := by
  simp [headerToBits, HeaderWord.and, BitVec.and_append (v := 8)]

theorem headerToBits_inj {h k : HeaderWord} : headerToBits h = headerToBits k ↔ h = k :=
  (Function.LeftInverse.injective headerOfBits_headerToBits).eq_iff

end Sys2Proof

namespace Sys2Proof.Machine

theorem legal10_iff {h : HeaderWord} : legal10 h = true ↔
    sigOk h.sig0 h.sig1 h.sig2 = true ∧ verOk h.ver h.rev = true ∧ flagsOk h.flags = true ∧
    sizeOk h.sz3 h.sz2 h.sz1 h.sz0 = true := by
  simp [legal10, and_assoc]

/-- The bytes of R65's mask, most significant first. -/
def maskBytes : HeaderWord := ⟨0xFF#8, 0xFF#8, 0xFF#8, 0x00#8, 0x00#8, 0x1F#8, 0x80#8, 0x80#8, 0x80#8, 0x80#8⟩

/-- The bytes of R65's match, most significant first. -/
def matchBytes : HeaderWord := ⟨0x49#8, 0x44#8, 0x33#8, 0x00#8, 0x00#8, 0x00#8, 0x00#8, 0x00#8, 0x00#8, 0x00#8⟩

theorem headerToBits_maskBytes : headerToBits maskBytes = headerMask := rfl
theorem headerToBits_matchBytes : headerToBits matchBytes = headerMatch := rfl

/-- The mask of a size byte tests its bit 7. -/
theorem sizeByteOk_iff_and_mask {b : Byte} : sizeByteOk b = true ↔ b &&& 0x80#8 = 0x00#8 := by
  have hbit7 : b.getLsbD 7 = true ↔ b &&& 0x80#8 ≠ 0x00#8 := getLsbD_iff_and_twoPow_ne_zero b (i := 7) (by decide)
  rw [sizeByteOk_iff_bit7, ← Bool.not_eq_true, hbit7, not_not]

/-- The fixed bits of a header word (R65) are the signature, the flags and the size conditions; version and revision
have none. -/
theorem headerToBits_and_mask_iff {h : HeaderWord} : headerToBits h &&& headerMask = headerMatch ↔
    sigOk h.sig0 h.sig1 h.sig2 = true ∧ flagsOk h.flags = true ∧ sizeOk h.sz3 h.sz2 h.sz1 h.sz0 = true := by
  have hsig (b : Byte) : b &&& 0xFF#8 = b := BitVec.and_allOnes (w := 8)
  rw [← headerToBits_maskBytes, ← headerToBits_matchBytes, ← headerToBits_and, headerToBits_inj, sigOk_iff,
    flagsOk_iff_and_lowMask, sizeOk_iff]
  simp [HeaderWord.and, maskBytes, matchBytes, hsig, sizeByteOk_iff_and_mask, and_assoc]

theorem headerToBits_slice_ver (h : HeaderWord) : (headerToBits h).extractLsb' 48 8 = h.ver :=
  congrArg HeaderWord.ver (headerOfBits_headerToBits h)

theorem headerToBits_slice_rev (h : HeaderWord) : (headerToBits h).extractLsb' 40 8 = h.rev :=
  congrArg HeaderWord.rev (headerOfBits_headerToBits h)

/-- Settles O8: the fixed bits are three of the four conditions, and the side conditions on the slices of version and
revision are the fourth. -/
theorem legalTenIsMatchMaskAndSideConditions : Obligations.LegalTenIsMatchMaskAndSideConditions := by
  unfold Obligations.LegalTenIsMatchMaskAndSideConditions
  refine fun h => ⟨legal10_iff, ?pattern⟩
  have hfixed := headerToBits_and_mask_iff (h := h)
  rw [headerMask, headerMatch] at hfixed
  rw [legal10_iff, hfixed, headerToBits_slice_ver, headerToBits_slice_rev, ← verOk_iff_ne]
  tauto

end Sys2Proof.Machine
end

section
/-! The command `VALID` (spec/41_validate.md R95) and the properties of validation (R96): what `VALID` and `DEC` answer
once ten bytes are held, for a legal and for an illegal header word. -/

namespace Sys2Proof.Machine

/-- With ten bytes held `VALID` answers by the header word (R95). -/
theorem State.afterValid_res_of_held {s : State} (h : s.inputFailure = none) :
    s.afterValid.res = if legal10 s.headerWord then .rTrue else .rFalse := by
  rw [State.afterValid_res, h]

/-- With ten bytes held that are not legal, `VALID` answers false and `DEC` fails (R95, R106). -/
theorem State.res_of_illegal {s : State} (hi : s.inputFailure = none) (hw : legal10 s.headerWord = false) :
    s.afterValid.res = .rFalse ∧ s.afterDec.res = .eTag := by
  have hd : s.decFailure = some .tag := by simp [State.decFailure, hi, hw]
  refine ⟨?valid, ?dec⟩
  case valid => rw [State.afterValid_res_of_held hi, hw]; rfl
  case dec => rw [State.afterDec_res, hd]; rfl

/-- Settles O21: the sequence's own failure, absent before short, is reported, and the header word is asked only when
there is none; the frame is that of the fields `VALID` does not write. -/
theorem validReportsAndWritesResOnly : Obligations.ValidReportsAndWritesResOnly := by
  unfold Obligations.ValidReportsAndWritesResOnly
  refine fun s => ⟨s.afterValid, exec_eq_afterInstr .valid s, fun hp => ?absent, fun hp hl => ?short,
    fun hp hl => ?held, s.afterValid_present, s.afterValid_len, s.afterValid_record, s.afterValid_port,
    fun a => congrArg (Memory.readByte · a) s.afterValid_buf⟩
  case absent => exact State.afterValid_res_of_inputFailure (State.inputFailure_eq_absent.mpr hp)
  case short => exact State.afterValid_res_of_inputFailure (State.inputFailure_eq_short.mpr ⟨hp, hl⟩)
  case held => exact State.afterValid_res_of_held (State.inputFailure_eq_none.mpr ⟨hp, hl⟩)

/-- A flags byte with a low bit set makes a header word illegal (R96). -/
theorem legal10_eq_false_of_lowFlagBit {h : HeaderWord} (hlow : h.flags &&& 0x1F#8 ≠ 0x00#8) : legal10 h = false := by
  refine Bool.eq_false_iff.mpr fun hlegal => ?_
  obtain ⟨-, -, hflags, -⟩ := legal10_iff.mp hlegal
  exact hlow (flagsOk_iff_and_lowMask.mp hflags)

/-- A signature other than that of `SIG` makes a header word illegal (R96). -/
theorem legal10_eq_false_of_signature {h : HeaderWord}
    (hsig : ¬ (h.sig0 = 0x49#8 ∧ h.sig1 = 0x44#8 ∧ h.sig2 = 0x33#8)) : legal10 h = false := by
  refine Bool.eq_false_iff.mpr fun hlegal => ?_
  obtain ⟨hsigOk, -⟩ := legal10_iff.mp hlegal
  exact hsig (sigOk_iff.mp hsigOk)

/-- Below ten bytes `VALID` reports the sequence's own failure, too short when it is present and absent otherwise
(R123). -/
theorem State.afterValid_res_below_ten {s : State} (hl : s.len.toNat < 10) :
    s.afterValid.res = if s.present then .eShort else .eAbsent := by
  cases hp : s.present with
  | true => exact State.afterValid_res_of_inputFailure (State.inputFailure_eq_short.mpr ⟨hp, hl⟩)
  | false => exact State.afterValid_res_of_inputFailure (State.inputFailure_eq_absent.mpr hp)

/-- Settles O28: a low flag bit and a wrong signature each make the word illegal, and an illegal word has one answer
from `VALID` and one from `DEC`; below ten bytes the answer is a failure by `PRESENT`. -/
theorem validationProperties : Obligations.ValidationProperties := by
  unfold Obligations.ValidationProperties
  refine fun s => ⟨s.afterValid, s.afterDec, exec_eq_afterInstr .valid s, exec_eq_afterInstr .dec s,
    fun hp hl hlow => ?lowFlagBit, fun hp hl hsig => ?wrongSignature, fun hl => ?belowTen⟩
  case lowFlagBit =>
    exact State.res_of_illegal (State.inputFailure_eq_none.mpr ⟨hp, hl⟩) (legal10_eq_false_of_lowFlagBit hlow)
  case wrongSignature =>
    exact State.res_of_illegal (State.inputFailure_eq_none.mpr ⟨hp, hl⟩) (legal10_eq_false_of_signature hsig)
  case belowTen =>
    rw [State.afterValid_res_below_ten hl]
    cases s.present <;> simp

end Sys2Proof.Machine
end

section
/-! The sync-safe size (spec/42_decode.md R104): the formula needs no more than 32 bits, so the register holds the exact
number, and the radix-128 digits of a number below `2^28` are legal size bytes that stand for it. -/

namespace Sys2Proof.Machine

/-- Horner's form of the size is the weighted sum of its digits (R104). -/
theorem syncSafeNat_eq_sum (b6 b7 b8 b9 : Byte) :
    syncSafeNat b6 b7 b8 b9 = b6.toNat * 2097152 + b7.toNat * 16384 + b8.toNat * 128 + b9.toNat := by
  simp only [syncSafeNat]
  ring

/-- The size register holds the exact number, since even the greatest four bytes stand for less than `2^32` (R104). -/
@[simp] theorem syncSafe_toNat (b6 b7 b8 b9 : Byte) : (syncSafe b6 b7 b8 b9).toNat = syncSafeNat b6 b7 b8 b9 := by
  have h6 : b6.toNat < 256 := b6.isLt
  have h7 : b7.toNat < 256 := b7.isLt
  have h8 : b8.toNat < 256 := b8.isLt
  have h9 : b9.toNat < 256 := b9.isLt
  refine Nat.mod_eq_of_lt (?_ : syncSafeNat b6 b7 b8 b9 < 2 ^ 32)
  rw [syncSafeNat_eq_sum]
  omega

/-- Four legal size bytes are four digits below 128, so they stand for less than `128^4` (R104). -/
theorem syncSafeNat_lt {b6 b7 b8 b9 : Byte} (h : sizeOk b6 b7 b8 b9 = true) : syncSafeNat b6 b7 b8 b9 < 2 ^ 28 := by
  simp only [sizeOk_iff, sizeByteOk_iff_toNat_lt] at h
  rw [syncSafeNat_eq_sum]
  omega

/-- Settles O16: the register holds Horner's form exactly, which is the weighted sum, and four digits below 128 bound
it. -/
theorem syncSafeFormulaIsExact : Obligations.SyncSafeFormulaIsExact := by
  unfold Obligations.SyncSafeFormulaIsExact
  refine ⟨fun b6 b7 b8 b9 hok => ⟨syncSafe_toNat b6 b7 b8 b9, ?sum, ?bound⟩, rfl, rfl, rfl, rfl⟩
  case sum => rw [syncSafe_toNat, syncSafeNat_eq_sum]
  case bound =>
    rw [syncSafe_toNat]
    exact Nat.le_of_lt_succ (syncSafeNat_lt hok)

/-- The digit of weight `128^i` of a size, as a byte. -/
def sizeDigit (n i : Nat) : Byte := BitVec.ofNat 8 (n / 128 ^ i % 128)

theorem sizeDigit_toNat (n i : Nat) : (sizeDigit n i).toNat = n / 128 ^ i % 128 := by
  simp only [sizeDigit, BitVec.toNat_ofNat]
  omega

theorem sizeByteOk_sizeDigit (n i : Nat) : sizeByteOk (sizeDigit n i) = true := by
  rw [sizeByteOk_iff_toNat_lt, sizeDigit_toNat]
  exact Nat.mod_lt _ (by decide)

/-- The four digits of a size stand for it. -/
theorem syncSafeNat_sizeDigits {n : Nat} (hn : n < 2 ^ 28) :
    syncSafeNat (sizeDigit n 3) (sizeDigit n 2) (sizeDigit n 1) (sizeDigit n 0) = n := by
  simp only [syncSafeNat_eq_sum, sizeDigit_toNat]
  omega

/-- A header word with a given size: the signature, the rest zero, and the digits of the size. -/
def headerOfSize (n : Nat) : HeaderWord :=
  ⟨0x49#8, 0x44#8, 0x33#8, 0x00#8, 0x00#8, 0x00#8, sizeDigit n 3, sizeDigit n 2, sizeDigit n 1, sizeDigit n 0⟩

theorem legal10_headerOfSize (n : Nat) : legal10 (headerOfSize n) = true :=
  legal10_iff.mpr ⟨rfl, rfl, (by decide : flagsOk 0x00#8 = true), sizeOk_iff.mpr ⟨sizeByteOk_sizeDigit n 3,
    sizeByteOk_sizeDigit n 2, sizeByteOk_sizeDigit n 1, sizeByteOk_sizeDigit n 0⟩⟩

theorem fieldSize_headerOfSize {n : Nat} (hn : n < 2 ^ 28) : (fieldSize (headerOfSize n)).toNat = n :=
  (syncSafe_toNat _ _ _ _).trans (syncSafeNat_sizeDigits hn)

end Sys2Proof.Machine
end

section
/-! The command `DEC` (spec/42_decode.md R100 to R107): its outcome and record for each cause of failure and for a legal
header word, and what an outcome of `R_HEADER` says of the fields. -/

namespace Sys2Proof.Machine

/-! ## When `DEC` fails, and when it does not (R106, R123) -/

theorem State.decFailure_of_illegal {s : State} (hi : s.inputFailure = none) (hw : ¬ legal10 s.headerWord = true) :
    s.decFailure = some .tag := by
  simp [State.decFailure, hi, hw]

/-- A `DEC` that fails reports the cause and leaves no record. -/
theorem State.afterDec_answer_of_failure {s : State} {c : FailureCause} (h : s.decFailure = some c) :
    s.afterDec.res = c.outcome ∧ s.afterDec.headerRecord = Record.empty := by
  rw [State.afterDec_fails h]
  exact ⟨rfl, rfl⟩

/-- The failure of the sequence itself is one of these: it is looked for before the header word. -/
theorem State.afterDec_answer_of_inputFailure {s : State} {c : FailureCause} (h : s.inputFailure = some c) :
    s.afterDec.res = c.outcome ∧ s.afterDec.headerRecord = Record.empty := by
  have hd : s.decFailure = some c := by simp [State.decFailure, h]
  exact State.afterDec_answer_of_failure hd

/-- A `DEC` that does not fail reports `R_HEADER` and the record of the captured header word. -/
theorem State.afterDec_answer_of_header {s : State} (h : s.decFailure = none) :
    s.afterDec.res = .rHeader ∧ s.afterDec.headerRecord = recordOf s.headerWord := by
  rw [State.afterDec_succeeds h]
  exact ⟨rfl, rfl⟩

/-- No failure has the code of `R_HEADER`, so this outcome means that there was none. -/
theorem State.afterDec_res_eq_rHeader {s : State} : s.afterDec.res = .rHeader ↔ s.decFailure = none := by
  refine ⟨fun hres => ?_, fun h => (State.afterDec_answer_of_header h).1⟩
  cases hd : s.decFailure with
  | none => rfl
  | some c =>
    rw [(State.afterDec_answer_of_failure hd).1] at hres
    cases c <;> contradiction

/-- The registers after `R_HEADER` are the bytes at 3, 4 and 5 and the size of the bytes at 6 to 9 (R100 to R104). -/
theorem State.afterDec_fields {s : State} (hres : s.afterDec.res = .rHeader) :
    s.afterDec.hv = true ∧ s.afterDec.ver = s.loadByte 3 ∧ s.afterDec.rev = s.loadByte 4 ∧
    s.afterDec.flags = s.loadByte 5 ∧ s.afterDec.size = fieldSize s.headerWord :=
  Record.mk.inj (State.afterDec_answer_of_header (State.afterDec_res_eq_rHeader.mp hres)).2

/-- Settles O22: one case for each cause of failure in their order, and the legal header word; the frame is that of the
elements `DEC` does not write. -/
theorem decDecodesOrClears : Obligations.DecDecodesOrClears := by
  unfold Obligations.DecDecodesOrClears
  refine fun s => ⟨s.afterDec, exec_eq_afterInstr .dec s, fun hp => ?absent, fun hp hl => ?short, fun hp hl => ?held,
    s.afterDec_present, s.afterDec_len, s.afterDec_port, fun a => congrArg (Memory.readByte · a) s.afterDec_buf⟩
  case absent => exact State.afterDec_answer_of_inputFailure (State.inputFailure_eq_absent.mpr hp)
  case short => exact State.afterDec_answer_of_inputFailure (State.inputFailure_eq_short.mpr ⟨hp, hl⟩)
  case held =>
    have hi : s.inputFailure = none := State.inputFailure_eq_none.mpr ⟨hp, hl⟩
    split
    next hw =>
      have hd : s.decFailure = none := State.decFailure_eq_none.mpr ⟨hi, hw⟩
      have hres : s.afterDec.res = .rHeader := State.afterDec_res_eq_rHeader.mpr hd
      exact ⟨hres, State.afterDec_fields hres⟩
    next hw => exact State.afterDec_answer_of_failure (State.decFailure_of_illegal hi hw)

/-- Settles O25: `R_HEADER` says that the record of the captured header word was written, and the field functions are
projections. -/
theorem fieldsAreBytesThreeFourFive : Obligations.FieldsAreBytesThreeFourFive := by
  unfold Obligations.FieldsAreBytesThreeFourFive
  intro s t ht hres
  obtain rfl : s.afterDec = t := exec_eq_next_iff.mp ht
  obtain ⟨-, hver, hrev, hflags, -⟩ := State.afterDec_fields hres
  exact ⟨hver, hrev, hflags, fun _ => ⟨rfl, rfl, rfl⟩⟩

/-- The three header flags of a flags byte, in the order of R103's table. -/
def flagTriple (f : Byte) : Bool × Bool × Bool := (unsyncOf f, exthdrOf f, experOf f)

theorem State.flagOutputs_eq_flagTriple (s : State) : (s.unsync, s.exthdr, s.exper) = flagTriple s.flags := rfl

/-- Settles O26: after `R_HEADER` the register `FLAGS` is byte 5, and the outputs are its bits by their masks; a row of
the table is the outputs at one value of `FLAGS`. -/
theorem flagDecomposition : Obligations.FlagDecomposition := by
  unfold Obligations.FlagDecomposition
  refine ⟨fun s t ht hres => ?decoded, fun s => ?table⟩
  case decoded =>
    obtain rfl : s.afterDec = t := exec_eq_next_iff.mp ht
    obtain ⟨-, -, -, hflags, -⟩ := State.afterDec_fields hres
    rw [← hflags]
    exact ⟨unsyncOf_iff_mask _, exthdrOf_iff_mask _, experOf_iff_mask _⟩
  case table =>
    rw [State.flagOutputs_eq_flagTriple]
    exact ⟨congrArg flagTriple, congrArg flagTriple, congrArg flagTriple, congrArg flagTriple,
      congrArg flagTriple, congrArg flagTriple, congrArg flagTriple, congrArg flagTriple⟩

/-- Settles O27: the digits of a size make a legal header word of that size; a legal word that is held is decoded, and
`SIZE` is its size whatever that is. -/
theorem everySizeIsAcceptedAsItIs : Obligations.EverySizeIsAcceptedAsItIs := by
  unfold Obligations.EverySizeIsAcceptedAsItIs
  refine fun n hn => ⟨⟨headerOfSize n, legal10_headerOfSize n, fieldSize_headerOfSize hn⟩,
    fun s hp hl hw hsize => ⟨s.afterDec, exec_eq_afterInstr .dec s, ?_⟩⟩
  have hd : s.decFailure = none := State.decFailure_eq_none.mpr ⟨State.inputFailure_eq_none.mpr ⟨hp, hl⟩, hw⟩
  have hres : s.afterDec.res = .rHeader := State.afterDec_res_eq_rHeader.mpr hd
  obtain ⟨-, -, -, -, hfield⟩ := State.afterDec_fields hres
  exact ⟨hres, (congrArg BitVec.toNat hfield).trans hsize⟩

end Sys2Proof.Machine
end

section
/-! `DEC` as a function of the sequence (spec/42_decode.md R109): it reads `PRESENT`, whether ten bytes are held, and
those ten bytes if they are, and no command of the invocation changes what it reads once they are held. -/

namespace Sys2Proof.Machine

/-- The sequence's own failure depends on `PRESENT` and on whether ten bytes are held. -/
theorem State.inputFailure_congr_held {s t : State} (hp : s.present = t.present)
    (hl : 10 ≤ s.len.toNat ↔ 10 ≤ t.len.toNat) : s.inputFailure = t.inputFailure := by
  have hshort : s.len.toNat < 10 ↔ t.len.toNat < 10 := by omega
  simp only [State.inputFailure, hp, hshort]

/-- `DEC` reads the header word only where the sequence does not fail of itself (R109). -/
theorem State.afterDec_answer_congr {s t : State} (hi : s.inputFailure = t.inputFailure)
    (hw : s.inputFailure = none → s.headerWord = t.headerWord) :
    s.afterDec.res = t.afterDec.res ∧ s.afterDec.headerRecord = t.afterDec.headerRecord := by
  cases h : s.inputFailure with
  | none => exact ⟨State.afterDec_res_congr hi (hw h), State.afterDec_record_congr hi (hw h)⟩
  | some c =>
    obtain ⟨hres, hrecord⟩ := State.afterDec_answer_of_inputFailure h
    obtain ⟨hres', hrecord'⟩ := State.afterDec_answer_of_inputFailure (hi.symm.trans h)
    exact ⟨hres.trans hres'.symm, hrecord.trans hrecord'.symm⟩

/-! ## The commands of one invocation -/

/-- The second state holds the sequence of the first, and what was captured since. -/
structure State.ExtendedBy (s t : State) : Prop where
  present : t.present = s.present
  len_le : s.len.toNat ≤ t.len.toNat
  loadByte : ∀ a, a < s.len.toNat → t.loadByte a = s.loadByte a

theorem State.ExtendedBy.trans {s t u : State} (hst : s.ExtendedBy t) (htu : t.ExtendedBy u) : s.ExtendedBy u where
  present := htu.present.trans hst.present
  len_le := hst.len_le.trans htu.len_le
  loadByte a ha := (htu.loadByte a (ha.trans_le hst.len_le)).trans (hst.loadByte a ha)

/-- A command that writes neither `PRESENT`, `LEN` nor `BUF` leaves the sequence as it is. -/
theorem State.ExtendedBy.of_eq {s t : State} (hp : t.present = s.present) (hl : t.len = s.len) (hb : t.buf = s.buf) :
    s.ExtendedBy t where
  present := hp
  len_le := (congrArg BitVec.toNat hl).ge
  loadByte a _ := State.loadByte_congr hb a

theorem State.extendedBy_afterPush (s : State) (b : Byte) : s.ExtendedBy (s.afterPush b) where
  present := s.afterPush_present b
  len_le := s.len_le_afterPush b
  loadByte _ := s.afterPush_loadByte_below b

theorem State.extendedBy_afterValid (s : State) : s.ExtendedBy s.afterValid :=
  .of_eq s.afterValid_present s.afterValid_len s.afterValid_buf

theorem State.extendedBy_afterDec (s : State) : s.ExtendedBy s.afterDec :=
  .of_eq s.afterDec_present s.afterDec_len s.afterDec_buf

theorem State.extendedBy_afterInstr (s : State) {i : Instr} (hi : i.keepsInvocation = true) :
    s.ExtendedBy (s.afterInstr i) := by
  cases i with
  | begin => contradiction
  | push b => exact s.extendedBy_afterPush b
  | valid => exact s.extendedBy_afterValid
  | dec => exact s.extendedBy_afterDec
  | id3v2Header h => contradiction

theorem State.extendedBy_afterEvent (s : State) {e : PortEvent} (he : e.keepsInvocation = true) :
    s.ExtendedBy (s.afterEvent e) := by
  cases e with
  | present w => exact s.extendedBy_afterInstr he
  | reset => contradiction

/-- Commands of one invocation only add to the sequence. -/
theorem State.extendedBy_afterEvents (s : State) {es : List PortEvent} (hes : ∀ e ∈ es, e.keepsInvocation = true) :
    s.ExtendedBy (s.afterEvents es) := by
  induction es generalizing s with
  | nil => exact .of_eq rfl rfl rfl
  | cons e es ih =>
    obtain ⟨he, hes⟩ := List.forall_mem_cons.mp hes
    exact (s.extendedBy_afterEvent he).trans (ih (s.afterEvent e) hes)

/-- `DEC` answers the same before and after an extension, if ten bytes were held before it or fewer still are after
it. -/
theorem State.ExtendedBy.afterDec_answer {s u : State} (h : s.ExtendedBy u)
    (hl : 10 ≤ s.len.toNat ∨ u.len.toNat < 10) :
    u.afterDec.res = s.afterDec.res ∧ u.afterDec.headerRecord = s.afterDec.headerRecord := by
  have hle := h.len_le
  refine State.afterDec_answer_congr (State.inputFailure_congr_held h.present (by omega)) fun hnone => ?_
  obtain ⟨-, hheld⟩ : u.present = true ∧ 10 ≤ u.len.toNat := State.inputFailure_eq_none.mp hnone
  have hheld' : 10 ≤ s.len.toNat := by omega
  exact State.headerWord_congr fun a ha => h.loadByte a (Nat.lt_of_lt_of_le ha hheld')

/-! ## Invocations that are fed the same bytes -/

theorem State.afterEvents_presentAll_parseInstrs (s : State) (bs : List Byte) :
    s.afterEvents (presentAll (parseInstrs bs)) = (s.afterBegin.afterFeed bs).afterDec := by
  rw [parseInstrs, State.afterEvents_presentAll_cons, presentAll, List.map_append, State.afterEvents_append]
  exact congrArg State.afterDec (s.afterBegin.afterEvents_presentAll_feedInstrs bs)

/-- What a new invocation holds after a feed: the number of bytes fed, up to 20, and each of them in its place. -/
theorem State.afterBegin_afterFeed_reads (s : State) (bs : List Byte) :
    (s.afterBegin.afterFeed bs).present = true ∧ (s.afterBegin.afterFeed bs).len.toNat = min bs.length 20 ∧
    ∀ i (hi : i < bs.length), i < 20 → (s.afterBegin.afterFeed bs).loadByte i = bs[i] := by
  obtain ⟨hpresent, -⟩ := s.afterBegin.afterFeed_unwritten bs
  obtain ⟨hlen, -, -, hread⟩ := s.afterBegin.afterFeed_reads bs rfl (Nat.zero_le _)
  simp only [State.afterBegin_len, BitVec.toNat_zero, Nat.zero_add] at hlen hread
  exact ⟨hpresent, hlen, fun i hi hcap =>
    State.loadByte_of_some ((hread i hcap hi).trans (List.getElem?_eq_getElem hi))⟩

/-- `DEC` answers the same in two new invocations fed the same bytes, whatever the buffer held before. -/
theorem State.afterDec_answer_of_feed (s t : State) (bs : List Byte) :
    (s.afterBegin.afterFeed bs).afterDec.res = (t.afterBegin.afterFeed bs).afterDec.res ∧
    (s.afterBegin.afterFeed bs).afterDec.headerRecord = (t.afterBegin.afterFeed bs).afterDec.headerRecord := by
  obtain ⟨hp, hl, hbytes⟩ := s.afterBegin_afterFeed_reads bs
  obtain ⟨hp', hl', hbytes'⟩ := t.afterBegin_afterFeed_reads bs
  have hi : (s.afterBegin.afterFeed bs).inputFailure = (t.afterBegin.afterFeed bs).inputFailure :=
    State.inputFailure_congr_held (hp.trans hp'.symm) (by rw [hl, hl'])
  refine State.afterDec_answer_congr hi fun hnone => ?_
  obtain ⟨-, hheld⟩ : _ ∧ 10 ≤ (s.afterBegin.afterFeed bs).len.toNat := State.inputFailure_eq_none.mp hnone
  refine State.headerWord_congr fun a (ha : a < 10) => ?_
  have hfed : a < bs.length := by omega
  exact (hbytes a hfed (by omega)).trans (hbytes' a hfed (by omega)).symm

/-- Settles O31: commands of the invocation between two `DEC` only extend the sequence that the first one read; states
that agree on what `DEC` reads, and invocations fed the same bytes, agree on its answer. -/
theorem decodingIsIdempotent : Obligations.DecodingIsIdempotent := by
  unfold Obligations.DecodingIsIdempotent
  refine ⟨fun es s hes => ?again, fun s s' t t' hp hl hbytes ht ht' => ?function,
    fun bs s s' t t' ht ht' => ?invocations⟩
  case again =>
    have hext : s.ExtendedBy (s.afterDec.afterEvents es) :=
      s.extendedBy_afterDec.trans (s.afterDec.extendedBy_afterEvents hes)
    exact ⟨s.afterDec, s.afterDec.afterEvents es, _, exec_eq_afterInstr .dec s, runEvents_eq_afterEvents es s.afterDec,
      exec_eq_afterInstr .dec _, hext.afterDec_answer⟩
  case function =>
    obtain rfl : s.afterDec = t := exec_eq_next_iff.mp ht
    obtain rfl : s'.afterDec = t' := exec_eq_next_iff.mp ht'
    exact State.afterDec_answer_congr (State.inputFailure_congr_held hp hl) fun _ => State.headerWord_congr hbytes
  case invocations =>
    simp only [runEvents_eq_afterEvents, State.afterEvents_presentAll_parseInstrs, Host.Outcome.next.injEq] at ht ht'
    rw [← ht, ← ht']
    exact State.afterDec_answer_of_feed s s' bs

end Sys2Proof.Machine
end

section
/-! Failures (spec/60_exceptions.md R121 to R129): the outcome that reports a cause says that the cause holds, raising it
writes `RES`, and what `VALID` and `DEC` report depends on the sequence, never on the outcome that stands. -/

namespace Sys2Proof.Machine

/-! ## Which cause an outcome reports (R121, R123) -/

theorem FailureCause.outcome_isFailure (c : FailureCause) : c.outcome.isFailure = true := by
  cases c <;> rfl

theorem FailureCause.outcome_injective : Function.Injective FailureCause.outcome := by
  intro c d
  cases c <;> cases d <;> decide

/-- A failure that `VALID` reports is the sequence's own. -/
theorem State.afterValid_res_eq_outcome {s : State} {c : FailureCause} :
    s.afterValid.res = c.outcome ↔ s.inputFailure = some c := by
  refine ⟨fun hres => ?_, State.afterValid_res_of_inputFailure⟩
  cases hi : s.inputFailure with
  | some d =>
    have hd : d.outcome = c.outcome := (State.afterValid_res_of_inputFailure hi).symm.trans hres
    rw [FailureCause.outcome_injective hd]
  | none =>
    have hfail := c.outcome_isFailure
    rw [← hres, State.afterValid_res_of_held hi] at hfail
    split at hfail <;> contradiction

theorem State.afterDec_res_eq_outcome {s : State} {c : FailureCause} :
    s.afterDec.res = c.outcome ↔ s.decFailure = some c := by
  refine ⟨fun hres => ?_, fun h => (State.afterDec_answer_of_failure h).1⟩
  cases hd : s.decFailure with
  | some d =>
    have hcause : d.outcome = c.outcome := (State.afterDec_answer_of_failure hd).1.symm.trans hres
    rw [FailureCause.outcome_injective hcause]
  | none =>
    have hfail := c.outcome_isFailure
    rw [← hres, State.afterDec_res_eq_rHeader.mpr hd] at hfail
    contradiction

/-- But for an illegal header word, `DEC` fails as the sequence does of itself. -/
theorem State.decFailure_eq_inputFailure {s : State} {c : FailureCause} (hc : c ≠ .tag) :
    s.decFailure = some c ↔ s.inputFailure = some c := by
  cases hi : s.inputFailure with
  | some d => simp [State.decFailure, hi]
  | none => simp [State.decFailure, hi, hc.symm]

theorem State.decFailure_eq_tag {s : State} :
    s.decFailure = some .tag ↔ s.inputFailure = none ∧ legal10 s.headerWord = false := by
  cases hi : s.inputFailure with
  | some d =>
    have hd : d ≠ .tag := fun h => s.inputFailure_ne_tag (h ▸ hi)
    simp [State.decFailure, hi, hd]
  | none => simp [State.decFailure, hi]

/-- `DEC` fails with `E_TAG` exactly where ten bytes are held that are no legal header word. -/
theorem State.afterDec_res_eq_eTag {s : State} :
    s.afterDec.res = .eTag ↔ s.present = true ∧ 10 ≤ s.len.toNat ∧ legal10 s.headerWord = false :=
  calc s.afterDec.res = .eTag
    _ ↔ s.decFailure = some .tag := State.afterDec_res_eq_outcome (c := .tag)
    _ ↔ s.inputFailure = none ∧ legal10 s.headerWord = false := State.decFailure_eq_tag
    _ ↔ (s.present = true ∧ 10 ≤ s.len.toNat) ∧ legal10 s.headerWord = false := by
      rw [State.inputFailure_eq_none]
    _ ↔ s.present = true ∧ 10 ≤ s.len.toNat ∧ legal10 s.headerWord = false := and_assoc

/-! ## The outcome that stands has no part in the next one (R126) -/

/-- What `VALID` and `DEC` report is a function of the sequence: `PRESENT`, `LEN` and `BUF`. -/
theorem State.res_congr_sequence {s t : State} (hp : s.present = t.present) (hl : s.len = t.len) (hb : s.buf = t.buf) :
    s.afterValid.res = t.afterValid.res ∧ s.afterDec.res = t.afterDec.res := by
  have hi : s.inputFailure = t.inputFailure := State.inputFailure_congr hp hl
  have hw : s.headerWord = t.headerWord := State.headerWord_congr_buf hb
  exact ⟨State.afterValid_res_congr hi hw, State.afterDec_res_congr hi hw⟩

/-- A second `VALID` reports what the first did. -/
theorem State.afterValid_afterValid_res (s : State) : s.afterValid.afterValid.res = s.afterValid.res :=
  (State.res_congr_sequence s.afterValid_present s.afterValid_len s.afterValid_buf).1

/-- A second `DEC` reports what the first did. -/
theorem State.afterDec_afterDec_res (s : State) : s.afterDec.afterDec.res = s.afterDec.res :=
  (State.res_congr_sequence s.afterDec_present s.afterDec_len s.afterDec_buf).2

/-- No sequence, no commands of the invocation: the report stays `E_ABSENT`. -/
theorem State.ExtendedBy.res_of_absent {s u : State} (h : s.ExtendedBy u) (hp : s.present = false) :
    u.afterValid.res = .eAbsent ∧ u.afterDec.res = .eAbsent := by
  have hi : u.inputFailure = some .absent := State.inputFailure_eq_absent.mpr (h.present.trans hp)
  exact ⟨State.afterValid_res_of_inputFailure hi, State.afterDec_res_of_inputFailure hi⟩

/-- Bytes captured after ten illegal ones do not mend them. -/
theorem State.ExtendedBy.afterDec_res_of_eTag {s u : State} (h : s.ExtendedBy u) (htag : s.afterDec.res = .eTag) :
    u.afterDec.res = .eTag := by
  obtain ⟨-, hheld, -⟩ := State.afterDec_res_eq_eTag.mp htag
  exact (h.afterDec_answer (.inl hheld)).1.trans htag

/-- Settles O34: what `VALID` and `DEC` report is a function of the sequence, which neither of them writes and the
commands of an invocation only extend; the bytes that end a shortage are a legal header word fed to an empty
sequence. -/
theorem failureIsNotStickyAndRetryIsVain : Obligations.FailureIsNotStickyAndRetryIsVain := by
  unfold Obligations.FailureIsNotStickyAndRetryIsVain
  refine ⟨fun cw s => ⟨_, exec_eq_afterInstr _ s⟩, fun s r => ?overwrites, fun b s t u ht hu => ?capture,
    fun s t u ht hu => ?validTwice, fun s t u ht hu => ?decTwice, fun es s u v d hp hes hu hv hd => ?absent,
    fun es s t u d ht htag hes hu hd => ?tag, ?short⟩
  case overwrites =>
    obtain ⟨hvalid, hdec⟩ : ({ s with res := r } : State).afterValid.res = s.afterValid.res ∧
        ({ s with res := r } : State).afterDec.res = s.afterDec.res := State.res_congr_sequence rfl rfl rfl
    exact ⟨_, _, _, _, exec_eq_afterInstr .valid s, exec_eq_afterInstr .valid _, hvalid,
      exec_eq_afterInstr .dec s, exec_eq_afterInstr .dec _, hdec⟩
  case capture =>
    obtain rfl : s.afterBegin = t := exec_eq_next_iff.mp ht
    obtain rfl : s.afterPush b = u := exec_eq_next_iff.mp hu
    exact ⟨s.afterBegin_res, s.afterPush_res b⟩
  case validTwice =>
    obtain rfl : s.afterValid = t := exec_eq_next_iff.mp ht
    obtain rfl : s.afterValid.afterValid = u := exec_eq_next_iff.mp hu
    exact s.afterValid_afterValid_res
  case decTwice =>
    obtain rfl : s.afterDec = t := exec_eq_next_iff.mp ht
    obtain rfl : s.afterDec.afterDec = u := exec_eq_next_iff.mp hu
    exact s.afterDec_afterDec_res
  case absent =>
    obtain rfl : s.afterEvents es = u := Host.Outcome.next.inj ((runEvents_eq_afterEvents es s).symm.trans hu)
    obtain rfl : (s.afterEvents es).afterValid = v := exec_eq_next_iff.mp hv
    obtain rfl : (s.afterEvents es).afterDec = d := exec_eq_next_iff.mp hd
    exact (s.extendedBy_afterEvents hes).res_of_absent hp
  case tag =>
    obtain rfl : s.afterDec = t := exec_eq_next_iff.mp ht
    obtain rfl : s.afterDec.afterEvents es = u :=
      Host.Outcome.next.inj ((runEvents_eq_afterEvents es s.afterDec).symm.trans hu)
    obtain rfl : (s.afterDec.afterEvents es).afterDec = d := exec_eq_next_iff.mp hd
    exact (s.extendedBy_afterDec.trans (s.afterDec.extendedBy_afterEvents hes)).afterDec_res_of_eTag htag
  case short =>
    exact ⟨headerToBytes (headerOfSize 0), State.reset.afterBegin, _, _, _, exec_eq_afterInstr .dec _, by decide,
      runEvents_presentAll_feedInstrs _ _, exec_eq_afterInstr .dec _, by decide⟩

/-! ## The causes, the codes and the entry (R121 to R124) -/

/-- Settles O32: an outcome that reports a cause says that this cause holds, and the tests on the sequence say when
that is; `BEGIN` and `PUSH` leave no failure of their own. -/
theorem failureCausesAreExact : Obligations.FailureCausesAreExact := by
  unfold Obligations.FailureCausesAreExact
  refine ⟨fun s v d hv hd => ?causes, fun b s t u ht hu => ?capture, fun r => ?codes, rfl, rfl⟩
  case causes =>
    obtain rfl : s.afterValid = v := exec_eq_next_iff.mp hv
    obtain rfl : s.afterDec = d := exec_eq_next_iff.mp hd
    have hnoTag : s.afterValid.res ≠ .eTag := fun h =>
      s.inputFailure_ne_tag (State.afterValid_res_eq_outcome.mp h)
    have hdec {c : FailureCause} (hc : c ≠ .tag) : s.afterDec.res = c.outcome ↔ s.inputFailure = some c :=
      State.afterDec_res_eq_outcome.trans (State.decFailure_eq_inputFailure hc)
    exact ⟨State.afterValid_res_eq_outcome.trans State.inputFailure_eq_absent,
      (hdec (by decide)).trans State.inputFailure_eq_absent,
      State.afterValid_res_eq_outcome.trans State.inputFailure_eq_short,
      (hdec (by decide)).trans State.inputFailure_eq_short, hnoTag, State.afterDec_res_eq_eTag⟩
  case capture =>
    obtain rfl : s.afterBegin = t := exec_eq_next_iff.mp ht
    obtain rfl : s.afterPush b = u := exec_eq_next_iff.mp hu
    exact ⟨rfl, s.afterPush_res b⟩
  case codes => cases r <;> decide

/-- A `DEC` whose outcome is a failure has cleared the record and raised a cause (R106). -/
theorem State.afterDec_eq_of_isFailure {s : State} (h : s.afterDec.res.isFailure = true) :
    ∃ c, s.afterDec = s.clearHeader.raise c := by
  cases hd : s.decFailure with
  | some c => exact ⟨c, State.afterDec_fails hd⟩
  | none =>
    rw [State.afterDec_res_eq_rHeader.mpr hd] at h
    contradiction

/-- Settles O33: `VALID` writes `RES` in every case; a `DEC` that fails clears the record and raises its cause. -/
theorem raisingAFailureWritesTheCodeOnly : Obligations.RaisingAFailureWritesTheCodeOnly := by
  unfold Obligations.RaisingAFailureWritesTheCodeOnly
  refine ⟨State.raise_eq, rfl, fun s t ht _ => ?valid, fun s t ht hfail => ?dec⟩
  case valid =>
    obtain rfl : s.afterValid = t := exec_eq_next_iff.mp ht
    exact s.afterValid_eq
  case dec =>
    obtain rfl : s.afterDec = t := exec_eq_next_iff.mp ht
    obtain ⟨c, hc⟩ := State.afterDec_eq_of_isFailure hfail
    rw [hc]
    rfl

/-- Settles O35: ten illegal bytes have one answer from `VALID` and one from `DEC`, and the second alone is a
failure. -/
theorem negativeAnswerIsNoFailure : Obligations.NegativeAnswerIsNoFailure := by
  unfold Obligations.NegativeAnswerIsNoFailure
  intro s hp hl hw
  obtain ⟨hvalid, hdec⟩ := State.res_of_illegal (State.inputFailure_eq_none.mpr ⟨hp, hl⟩) hw
  exact ⟨s.afterValid, s.afterDec, exec_eq_afterInstr .valid s, exec_eq_afterInstr .dec s,
    hvalid, congrArg Res.isFailure hvalid, hdec, congrArg Res.isFailure hdec⟩

end Sys2Proof.Machine
end

section
/-! The reset input (spec/70_reset_and_hazards.md R150): it writes every element of the block but `BUF` with its reset
value, and no command makes a present sequence absent. -/

namespace Sys2Proof.Machine

/-- The state after the reset input is the reset state, but for the bytes of `BUF` and for what waits at the port. -/
theorem State.afterReset_eq (s : State) : s.afterReset = { State.reset with buf := s.buf, port := s.port } := rfl

/-- A sequence that is present stays present through every command: `BEGIN` and a header word open one, and the other
commands do not write `PRESENT`. -/
theorem State.afterInstr_present_of_present {s : State} (i : Instr) (hp : s.present = true) :
    (s.afterInstr i).present = true := by
  cases i with
  | begin => exact s.afterBegin_present
  | push b => exact (s.afterPush_present b).trans hp
  | valid => exact s.afterValid_present.trans hp
  | dec => exact s.afterDec_present.trans hp
  | id3v2Header h =>
    obtain ⟨hfeed, -⟩ := s.afterBegin.afterFeed_unwritten (headerToBytes h)
    rw [State.afterInstr_id3v2Header, State.afterDec_present, hfeed, State.afterBegin_present]

/-- The event that makes a present sequence absent is the reset input. -/
theorem State.eq_reset_of_afterEvent_absent {s : State} {e : PortEvent} (hp : s.present = true)
    (ha : (s.afterEvent e).present = false) : e = .reset := by
  cases e with
  | present w =>
    have hstays : (s.afterEvent (.present w)).present = true := State.afterInstr_present_of_present (decode w) hp
    exact absurd (hstays.symm.trans ha) (by decide)
  | reset => rfl

/-- Settles O38: the registers are read off the equation for the state after reset, in which `BUF` is the old one;
every other event is a command, and a present sequence stays present through each of them. -/
theorem resetEventGivesTheResetState : Obligations.ResetEventGivesTheResetState := by
  unfold Obligations.ResetEventGivesTheResetState
  refine ⟨fun s => ?effect, fun e s t ht hp ha => ?onlyReset⟩
  case effect =>
    obtain ⟨hunsync, hexthdr, hexper⟩ := State.flagOutputs_zero (s := s.afterReset) rfl
    exact ⟨s.afterReset, handleEvent_eq_afterEvent .reset s, rfl, rfl, rfl, rfl, rfl, rfl, rfl, rfl,
      hunsync, hexthdr, hexper, rfl, fun _ => rfl, s.afterReset_eq⟩
  case onlyReset =>
    obtain rfl : s.afterEvent e = t := Host.Outcome.next.inj ((handleEvent_eq_afterEvent e s).symm.trans ht)
    exact State.eq_reset_of_afterEvent_absent hp ha

end Sys2Proof.Machine
end

section
/-! Encode and decode (spec/30_encoding.md R60 to R71): a word of the port is its own fields again, and its bytes hold
the word; the lists of bytes that hold none are rejected by length or by the bits above `CW[9]`. -/

namespace Sys2Proof

open Machine

/-! ## Words of the port -/

/-- A header word is its ten bytes laid side by side: two neighbouring cuts are one wider cut, and the widest is the
word (R64). -/
@[simp] theorem headerToBits_headerOfBits (w : HeaderBits) : headerToBits (headerOfBits w) = w := by
  simp [headerToBits, headerOfBits, headerByte,
    BitVec.extractLsb'_append_extractLsb'_eq_extractLsb' (len₁ := 8), BitVec.extractLsb'_eq_self (w := 80)]

/-- The bytes of a word hold that word (R64, log 7). -/
@[simp] theorem wordOfBytes_wordToBytes (w : PortWord) : wordOfBytes (wordToBytes w) = .ok w := by
  cases w with
  | command cw =>
    have hop : (opField cw).setWidth 8 = 0#6 ++ opField cw := BitVec.setWidth_eq_append (by decide)
    have hhigh : ((opField cw).setWidth 8).extractLsb' 2 6 = 0#6 := by
      rw [hop]; exact BitVec.extractLsb'_append_eq_left
    have hlow : ((opField cw).setWidth 8).extractLsb' 0 2 = opField cw := by
      rw [hop]; exact BitVec.extractLsb'_append_eq_right
    simp [wordToBytes, wordOfBytes, hhigh, hlow, commandWord_opField_imm8Field]
  | header w => exact congrArg (Except.ok ∘ PortWord.header) (headerToBits_headerOfBits w)

/-- Settles O5: a presented instruction is decoded to itself, and its bytes hold the word presented. -/
theorem decodeOfEncodeIsTheInstruction : Obligations.DecodeOfEncodeIsTheInstruction := by
  unfold Obligations.DecodeOfEncodeIsTheInstruction
  refine fun i => ⟨decode_encode i, ?_⟩
  rw [decodeBytes, encodeBytes, wordOfBytes_wordToBytes, Except.map, decode_encode]

/-- Encoding sets the field `imm8` to zero, but for `PUSH` (R62). -/
theorem encode_decode_commandWord (op : BitVec 2) (b : Byte) :
    encode (decode (.command (commandWord op b))) = .command (commandWord op (if op = 0b01#2 then b else 0#8)) := by
  rcases decodeCommand_cases (commandWord op b) with ⟨hop, hd⟩ | ⟨hop, hd⟩ | ⟨hop, hd⟩ | ⟨hop, hd⟩
  all_goals
    rw [opField_commandWord] at hop
    rw [decode, hd]
    simp [hop, encode]

/-- Settles O6: a header word is its ten bytes, and encoding changes at most an `imm8` that is ignored. -/
theorem encodeOfDecodeIsCanonical : Obligations.EncodeOfDecodeIsCanonical := by
  unfold Obligations.EncodeOfDecodeIsCanonical
  refine ⟨fun w => ?header, fun b => ?push, fun op b hop => ?others⟩
  case header => exact congrArg PortWord.header (headerToBits_headerOfBits w)
  case push => exact encode_decode_commandWord 0b01#2 b
  case others => exact (encode_decode_commandWord op b).trans (by rw [if_neg hop, commandWord])

/-- Settles O3: `op` takes one of four values, and alone says which command a word is unless it is `PUSH`'s. -/
theorem immediateIgnoredExceptByPush : Obligations.ImmediateIgnoredExceptByPush := by
  unfold Obligations.ImmediateIgnoredExceptByPush
  refine ⟨fun cw => ?total, fun op b c hop => ?ignored⟩
  case total =>
    rcases decodeCommand_cases cw with ⟨-, hd⟩ | ⟨-, hd⟩ | ⟨-, hd⟩ | ⟨-, hd⟩
    · exact .inl hd
    · exact .inr (.inl hd)
    · exact .inr (.inr (.inl hd))
    · exact .inr (.inr (.inr hd))
  case ignored =>
    have hcanonical (d : Byte) : decode (.command (op ++ d)) = decode (.command (commandWord op 0#8)) := by
      have h := congrArg decode (encode_decode_commandWord op d)
      rwa [decode_encode, if_neg hop] at h
    exact (hcanonical b).trans (hcanonical c).symm

/-- Settles O1: the decoder evaluated on the nine words written out. -/
theorem writtenOutWordsDecode : Obligations.WrittenOutWordsDecode := by
  unfold Obligations.WrittenOutWordsDecode
  decide

/-- Settles O57: well-formedness checks the pattern of R65, which is `Legal10` (O8). -/
theorem wellFormedHeaderWordsAreTheLegalOnes : Obligations.WellFormedHeaderWordsAreTheLegalOnes := by
  unfold Obligations.WellFormedHeaderWordsAreTheLegalOnes
  intro h
  obtain ⟨-, hpattern⟩ := legalTenIsMatchMaskAndSideConditions h
  rw [hpattern]
  simp [Instr.wellFormed, headerFixedBitsOk, headerVerOk, headerRevOk, headerMask, headerMatch, and_assoc]

/-! ## Lists of bytes -/

/-- The six high bits of a byte are clear exactly when it is below 4. -/
theorem extractLsb'_high_eq_zero_iff {hi : Byte} : hi.extractLsb' 2 6 = 0#6 ↔ hi.toNat < 4 := by
  rw [← BitVec.toNat_inj, BitVec.extractLsb'_toNat, Nat.shiftRight_eq_div_pow, BitVec.toNat_zero]
  have := hi.isLt
  omega

/-- What a list of bytes holds: a command word, nothing for a bit above `CW[9]`, a header word, or nothing for its
length. -/
theorem decodeBytes_cases (bs : List Byte) :
    (∃ lo hi i, bs = [lo, hi] ∧ hi.toNat < 4 ∧ decodeBytes bs = .ok i) ∨
    (∃ lo hi, bs = [lo, hi] ∧ 4 ≤ hi.toNat ∧ decodeBytes bs = .error (.bitsAboveCommandWord hi)) ∨
    (∃ i, bs.length = 10 ∧ decodeBytes bs = .ok i) ∨
    (bs.length ≠ 2 ∧ bs.length ≠ 10 ∧ decodeBytes bs = .error (.noSuchLength bs.length)) := by
  unfold decodeBytes wordOfBytes
  split
  next lo hi =>
    split
    next h => exact .inl ⟨lo, hi, _, rfl, extractLsb'_high_eq_zero_iff.mp h, rfl⟩
    next h => exact .inr (.inl ⟨lo, hi, rfl, Nat.le_of_not_lt (mt extractLsb'_high_eq_zero_iff.mpr h), rfl⟩)
  next => exact .inr (.inr (.inl ⟨_, rfl, rfl⟩))
  next htwo hten =>
    refine .inr (.inr (.inr ⟨fun h => ?_, fun h => ?_, rfl⟩))
    · obtain ⟨lo, hi, rfl⟩ := List.length_eq_two.mp h
      exact htwo lo hi rfl
    · match bs, h with
      | [b0, b1, b2, b3, b4, b5, b6, b7, b8, b9], _ => exact hten b0 b1 b2 b3 b4 b5 b6 b7 b8 b9 rfl

/-- Settles O7: the four cases exclude each other, and each has one answer. -/
theorem byteListsRejectedByName : Obligations.ByteListsRejectedByName := by
  unfold Obligations.ByteListsRejectedByName
  intro bs
  rcases decodeBytes_cases bs with
    ⟨lo, hi, i, rfl, hlow, hd⟩ | ⟨lo, hi, rfl, hhigh, hd⟩ | ⟨i, hten, hd⟩ | ⟨htwo, hten, hd⟩
  · simp [hd, hlow]
  · simp [hd, hhigh]
  · have hne (lo hi : Byte) : bs ≠ [lo, hi] := fun h => by simp [h] at hten
    simp [hd, hten, hne]
  · have hne (lo hi : Byte) : bs ≠ [lo, hi] := fun h => by simp [h] at htwo
    simp [hd, htwo, hten, hne]

end Sys2Proof
end

section
/-! The invariants (spec/10_state.md R35): each update of the state keeps I1 to I4, I7 and I8 under the condition that
its command meets, so each command does, and so does every step. -/

namespace Sys2Proof.Machine

/-! ## The updates -/

/-- An empty sequence with no outcome and no record, as `BEGIN` and reset leave it. -/
theorem State.Inv.of_empty {s : State} (hbuf : s.buf.wf = true) (hlen : s.len = 0#5) (hres : s.res = .rNone)
    (hrecord : s.headerRecord = Record.empty) : s.Inv := by
  obtain ⟨hhv, hver, hrev, hflags, hsize⟩ := Record.mk.inj hrecord
  exact {
    bufCanonical := hbuf
    lenBound := by simp [hlen]
    captured := by simp [hlen]
    absentEmpty := fun _ => ⟨hlen, .inl hres, hhv⟩
    noRecord := fun _ => ⟨hver, hrev, hflags, hsize⟩
    record := by simp [hhv]
    headerOutcome := by simp [hres]
    reservedBits := by simp [hver, hrev, hflags, hsize, hres, Res.code] }

/-- No outcome has code 7 (R24). -/
theorem Res.code_ne_seven (r : Res) : r.code ≠ 7#3 := by
  cases r <;> decide

/-- The queue at the port has no part in the invariant. -/
theorem State.Inv.withPort {s : State} (h : s.Inv) (q : List PortEvent) : State.Inv { s with port := q } :=
  ⟨h.bufCanonical, h.lenBound, h.captured, h.absentEmpty, h.noRecord, h.record, h.headerOutcome, h.reservedBits⟩

/-- An outcome is written that an absent sequence may have, and that is `R_HEADER` only beside a record. -/
theorem State.Inv.setRes {s : State} (h : s.Inv) {r : Res} (habsent : s.present = false → r = .rNone ∨ r = .eAbsent)
    (hheader : r = .rHeader → s.hv = true) : (s.setRes r).Inv where
  bufCanonical := h.bufCanonical
  lenBound := h.lenBound
  captured := h.captured
  absentEmpty hp :=
    have ⟨hlen, _, hhv⟩ := h.absentEmpty hp
    ⟨hlen, habsent hp, hhv⟩
  noRecord := h.noRecord
  record := h.record
  headerOutcome := hheader
  reservedBits :=
    have ⟨hflags, hsize, hver, hrev, _⟩ := h.reservedBits
    ⟨hflags, hsize, hver, hrev, r.code_ne_seven⟩

/-- The record is cleared where the outcome is not `R_HEADER`. -/
theorem State.Inv.clearHeader {s : State} (h : s.Inv) (hres : s.res ≠ .rHeader) : s.clearHeader.Inv where
  bufCanonical := h.bufCanonical
  lenBound := h.lenBound
  captured := h.captured
  absentEmpty hp :=
    have ⟨hlen, hr, _⟩ := h.absentEmpty hp
    ⟨hlen, hr, rfl⟩
  noRecord _ := ⟨rfl, rfl, rfl, rfl⟩
  record hhv := by simp at hhv
  headerOutcome hr := absurd hr hres
  reservedBits := by simp [Res.code_ne_seven]

/-- The fields of a legal header word have their reserved bits zero (I8). -/
theorem reservedBits_of_legal10 {h : HeaderWord} (hw : legal10 h = true) :
    h.flags &&& 0x1F#8 = 0#8 ∧ (fieldSize h).toNat < 2 ^ 28 ∧ h.ver ≠ 0xFF#8 ∧ h.rev ≠ 0xFF#8 := by
  obtain ⟨-, hver, hflags, hsize⟩ := legal10_iff.mp hw
  obtain ⟨hv, hr⟩ := verOk_iff_ne.mp hver
  exact ⟨flagsOk_iff_and_lowMask.mp hflags, (syncSafe_toNat _ _ _ _).trans_lt (syncSafeNat_lt hsize), hv, hr⟩

/-- The record of the captured header word is written where that is held and legal. -/
theorem State.Inv.storeRecord {s : State} (h : s.Inv) (hi : s.inputFailure = none)
    (hw : legal10 s.headerWord = true) : (s.storeRecord s.headerWord).Inv := by
  obtain ⟨hp, hl⟩ := State.inputFailure_eq_none.mp hi
  obtain ⟨hflags, hsize, hver, hrev⟩ := reservedBits_of_legal10 hw
  exact {
    bufCanonical := h.bufCanonical
    lenBound := h.lenBound
    captured := h.captured
    absentEmpty := fun ha => absurd (hp.symm.trans ha) (by decide)
    noRecord := fun hhv => by simp [State.storeRecord] at hhv
    record := fun _ => ⟨hp, hl, hw, rfl, rfl, rfl, rfl⟩
    headerOutcome := fun _ => rfl
    reservedBits := ⟨hflags, hsize, hver, hrev, s.res.code_ne_seven⟩ }

/-! ## The commands -/

/-- Ten bytes that are held stay held, and are the same ten bytes, while the sequence is only extended. -/
theorem State.ExtendedBy.held {s t : State} (h : s.ExtendedBy t) (hi : s.inputFailure = none) :
    t.inputFailure = none ∧ t.headerWord = s.headerWord := by
  obtain ⟨hp, hl⟩ := State.inputFailure_eq_none.mp hi
  exact ⟨State.inputFailure_eq_none.mpr ⟨h.present.trans hp, hl.trans h.len_le⟩,
    State.headerWord_congr fun a ha => h.loadByte a (ha.trans_le hl)⟩

/-- A record that is held is that of the captured header word, which is held and legal (I4). -/
theorem State.Inv.held_of_hv {s : State} (h : s.Inv) (hhv : s.hv = true) :
    s.inputFailure = none ∧ legal10 s.headerWord = true ∧ s.headerRecord = recordOf s.headerWord := by
  obtain ⟨hp, hl, hw, hver, hrev, hflags, hsize⟩ := h.record hhv
  refine ⟨State.inputFailure_eq_none.mpr ⟨hp, hl⟩, hw, ?_⟩
  rw [State.headerRecord, hhv, hver, hrev, hflags, hsize]
  rfl

/-- The record of the captured header word, where that is held and legal, is what I4 asks for. -/
theorem State.held_record {s : State} (hi : s.inputFailure = none) (hw : legal10 s.headerWord = true)
    (hrecord : s.headerRecord = recordOf s.headerWord) :
    s.present = true ∧ Config.hdrLen ≤ s.len.toNat ∧ legal10 s.headerWord = true ∧
    s.ver = s.loadByte 3 ∧ s.rev = s.loadByte 4 ∧ s.flags = s.loadByte 5 ∧
    s.size = syncSafe (s.loadByte 6) (s.loadByte 7) (s.loadByte 8) (s.loadByte 9) := by
  obtain ⟨hp, hl⟩ := State.inputFailure_eq_none.mp hi
  obtain ⟨-, hfields⟩ := Record.mk.inj hrecord
  exact ⟨hp, hl, hw, hfields⟩

theorem State.Inv.afterBegin {s : State} (h : s.Inv) : s.afterBegin.Inv := .of_empty h.bufCanonical rfl rfl rfl

theorem State.Inv.afterReset {s : State} (h : s.Inv) : s.afterReset.Inv := .of_empty h.bufCanonical rfl rfl rfl

/-- A byte is captured below 20, where no captured byte stands, so the record stays that of the captured header
word. -/
theorem State.Inv.afterPush {s : State} (h : s.Inv) (b : Byte) : (s.afterPush b).Inv := by
  obtain ⟨hp, hl, hpush⟩ | ⟨-, hpush⟩ := s.afterPush_cases b
  next =>
    obtain ⟨hlen, hread⟩ := State.afterPush_reads b hp hl
    exact {
      bufCanonical := by rw [hpush]; exact Memory.wf_writeByte s.buf s.len.toNat b hl h.bufCanonical
      lenBound := by omega
      captured := fun a ha => by
        rw [hread]
        split
        next => rfl
        next => exact h.captured a (by omega)
      absentEmpty := fun ha => absurd (hp.symm.trans ((s.afterPush_present b).symm.trans ha)) (by decide)
      noRecord := by simpa using h.noRecord
      record := fun hhv => by
        obtain ⟨hi, hw, hrecord⟩ := h.held_of_hv ((s.afterPush_hv b).symm.trans hhv)
        obtain ⟨hi', hword⟩ := (s.extendedBy_afterPush b).held hi
        refine State.held_record hi' (hword ▸ hw) ?_
        rw [s.afterPush_record b, hrecord, hword]
      headerOutcome := by simpa using h.headerOutcome
      reservedBits := by simpa using h.reservedBits }
  next => rwa [hpush]

theorem State.Inv.afterFeed {s : State} (h : s.Inv) (bs : List Byte) : (s.afterFeed bs).Inv := by
  induction bs generalizing s with
  | nil => exact h
  | cons b bs ih => exact ih (h.afterPush b)

theorem FailureCause.outcome_ne_rHeader (c : FailureCause) : c.outcome ≠ .rHeader := by
  cases c <;> decide

/-- An absent sequence may have one cause of failure reported. -/
theorem State.Inv.raise {s : State} (h : s.Inv) {c : FailureCause} (hc : s.present = false → c = .absent) :
    (s.raise c).Inv :=
  h.setRes (fun hp => .inr (congrArg FailureCause.outcome (hc hp))) fun hr => absurd hr c.outcome_ne_rHeader

theorem State.afterValid_res_ne_rHeader (s : State) : s.afterValid.res ≠ .rHeader := by
  cases hi : s.inputFailure with
  | some c => exact State.afterValid_res_of_inputFailure hi ▸ c.outcome_ne_rHeader
  | none =>
    rw [State.afterValid_res_of_held hi]
    split <;> decide

theorem State.Inv.afterValid {s : State} (h : s.Inv) : s.afterValid.Inv := by
  rw [s.afterValid_eq]
  refine h.setRes (fun hp => .inr ?absent) fun hr => absurd hr s.afterValid_res_ne_rHeader
  case absent => exact State.afterValid_res_of_inputFailure (State.inputFailure_eq_absent.mpr hp)

/-- A failing `DEC` raises its cause and clears the record; a successful one writes a record and `R_HEADER`. -/
theorem State.Inv.afterDec {s : State} (h : s.Inv) : s.afterDec.Inv := by
  cases hd : s.decFailure with
  | some c =>
    have hc (hp : s.present = false) : c = .absent := by
      have habsent : s.decFailure = some .absent :=
        (State.decFailure_eq_inputFailure (by decide)).mpr (State.inputFailure_eq_absent.mpr hp)
      exact Option.some.inj (hd.symm.trans habsent)
    rw [State.afterDec_fails hd]
    exact (h.raise hc).clearHeader c.outcome_ne_rHeader
  | none =>
    obtain ⟨hi, hw⟩ := State.decFailure_eq_none.mp hd
    obtain ⟨hp, -⟩ := State.inputFailure_eq_none.mp hi
    rw [State.afterDec_succeeds hd]
    exact (h.storeRecord hi hw).setRes (fun ha => absurd (hp.symm.trans ha) (by decide)) fun _ => rfl

theorem State.Inv.afterInstr {s : State} (h : s.Inv) (i : Instr) : (s.afterInstr i).Inv := by
  cases i with
  | begin => exact h.afterBegin
  | push b => exact h.afterPush b
  | valid => exact h.afterValid
  | dec => exact h.afterDec
  | id3v2Header hw => exact (h.afterBegin.afterFeed (headerToBytes hw)).afterDec

theorem State.Inv.afterEvent {s : State} (h : s.Inv) (e : PortEvent) : (s.afterEvent e).Inv := by
  cases e with
  | present w => exact h.afterInstr (decode w)
  | reset => exact h.afterReset

theorem State.Inv.afterEvents {s : State} (h : s.Inv) (es : List PortEvent) : (s.afterEvents es).Inv := by
  induction es generalizing s with
  | nil => exact h
  | cons e es ih => exact ih (h.afterEvent e)

/-- Settles O44: a step is idle or one event, each command is a composition of updates that keep the invariant, and the
queue has no part in it. -/
theorem invariantKeptByEveryStep : Obligations.InvariantKeptByEveryStep := by
  unfold Obligations.InvariantKeptByEveryStep
  intro s t h hstep
  obtain ⟨-, rfl⟩ | ⟨e, rest, -, rfl⟩ := step_cases hstep
  · exact h
  · exact (h.withPort rest).afterEvent e

/-! ## The outcome (R155) -/

theorem State.OutcomeCurrent.of_rNone {s : State} (hres : s.res = .rNone) : s.OutcomeCurrent := by
  constructor <;> simp [hres]

/-- Settles O43: the reset state is empty, with no outcome and no record. -/
theorem invariantHoldsAtReset : Obligations.InvariantHoldsAtReset := by
  unfold Obligations.InvariantHoldsAtReset
  exact ⟨.of_empty reset_buf_wf rfl rfl rfl, .of_rNone rfl⟩

/-- An outcome stays current while the sequence is only extended: what is reported of ten bytes holds of the same ten
bytes. -/
theorem State.OutcomeCurrent.extend {s t : State} (h : s.OutcomeCurrent) (hext : s.ExtendedBy t)
    (hres : t.res = s.res) : t.OutcomeCurrent := by
  have hheld {b : Bool} (hs : s.inputFailure = none ∧ legal10 s.headerWord = b) :
      t.inputFailure = none ∧ legal10 t.headerWord = b := by
    obtain ⟨hi, hw⟩ := hext.held hs.1
    exact ⟨hi, hw ▸ hs.2⟩
  exact {
    whenTrue := fun hr => hheld (h.whenTrue (hres ▸ hr))
    whenFalse := fun hr => hheld (h.whenFalse (hres ▸ hr))
    whenHeader := fun hr => hheld (h.whenHeader (hres ▸ hr))
    whenTag := fun hr => hheld (h.whenTag (hres ▸ hr))
    whenAbsent := fun hr => hext.present.trans (h.whenAbsent (hres ▸ hr))
    whenShort := fun hr => hext.present.trans (h.whenShort (hres ▸ hr)) }

/-- With ten bytes held that are legal, `VALID` answers true and `DEC` gives the header (R95, R106). -/
theorem State.res_of_legal {s : State} (hi : s.inputFailure = none) (hw : legal10 s.headerWord = true) :
    s.afterValid.res = .rTrue ∧ s.afterDec.res = .rHeader := by
  refine ⟨?valid, State.afterDec_res_eq_rHeader.mpr (State.decFailure_eq_none.mpr ⟨hi, hw⟩)⟩
  case valid => rw [State.afterValid_res_of_held hi, if_pos hw]

/-- The outcome is current that `VALID` or `DEC` would report of the sequence as it is. -/
theorem State.OutcomeCurrent.of_reported {s : State} (h : s.res = s.afterValid.res ∨ s.res = s.afterDec.res) :
    s.OutcomeCurrent := by
  cases hi : s.inputFailure with
  | some c =>
    rw [State.afterValid_res_of_inputFailure hi, State.afterDec_res_of_inputFailure hi, or_self] at h
    cases c with
    | absent => constructor <;> simp [h, FailureCause.outcome, State.inputFailure_eq_absent.mp hi]
    | short => constructor <;> simp [h, FailureCause.outcome, State.inputFailure_eq_short.mp hi]
    | tag => exact absurd hi s.inputFailure_ne_tag
  | none =>
    cases hw : legal10 s.headerWord with
    | true =>
      obtain ⟨hvalid, hdec⟩ := State.res_of_legal hi hw
      rw [hvalid, hdec] at h
      rcases h with h | h <;> constructor <;> simp [h, hi, hw]
    | false =>
      obtain ⟨hvalid, hdec⟩ := State.res_of_illegal hi hw
      rw [hvalid, hdec] at h
      rcases h with h | h <;> constructor <;> simp [h, hi, hw]

theorem State.OutcomeCurrent.afterDec (s : State) : s.afterDec.OutcomeCurrent :=
  .of_reported (.inr s.afterDec_afterDec_res.symm)

theorem State.OutcomeCurrent.afterInstr {s : State} (h : s.OutcomeCurrent) (i : Instr) :
    (s.afterInstr i).OutcomeCurrent := by
  cases i with
  | begin => exact .of_rNone rfl
  | push b => exact h.extend (s.extendedBy_afterPush b) (s.afterPush_res b)
  | valid => exact .of_reported (.inl s.afterValid_afterValid_res.symm)
  | dec => exact .afterDec s
  | id3v2Header hw => exact .afterDec (s.afterBegin.afterFeed (headerToBytes hw))

theorem State.OutcomeCurrent.afterEvent {s : State} (h : s.OutcomeCurrent) (e : PortEvent) :
    (s.afterEvent e).OutcomeCurrent := by
  cases e with
  | present w => exact h.afterInstr (decode w)
  | reset => exact .of_rNone rfl

/-- Settles O45: `BEGIN` and reset leave no outcome, `PUSH` extends the sequence, and `VALID` and `DEC` report what they
would report again; `Inv` is not needed. -/
theorem outcomeNeverGoesStaleButShort : Obligations.OutcomeNeverGoesStaleButShort := by
  unfold Obligations.OutcomeNeverGoesStaleButShort
  intro s t _ h hstep
  obtain ⟨-, rfl⟩ | ⟨e, rest, -, rfl⟩ := step_cases hstep
  · exact h
  · have hport : State.OutcomeCurrent { s with port := rest } := h.extend (.of_eq rfl rfl rfl) rfl
    exact hport.afterEvent e

/-! ## The invariants I5 and I6 over runs -/

theorem State.afterPush_readByte_below (s : State) (b : Byte) {a : Nat} (ha : a < s.len.toNat) :
    (s.afterPush b).buf.readByte a = s.buf.readByte a := by
  obtain ⟨hp, hl, -⟩ | ⟨-, hpush⟩ := s.afterPush_cases b
  · obtain ⟨-, hread⟩ := State.afterPush_reads b hp hl
    exact (hread a).trans (if_neg ha.ne)
  · rw [hpush]

/-- The events that do not end the invocation are `PUSH`, `VALID` and `DEC` (R14), and `PUSH` alone offers a byte. -/
theorem State.afterEvent_cases_of_keepsInvocation (s : State) {e : PortEvent} (he : e.keepsInvocation = true) :
    (∃ b, e.pushedByte = some b ∧ s.afterEvent e = s.afterPush b) ∨
    (e.pushedByte = none ∧ s.afterEvent e = s.afterValid) ∨ (e.pushedByte = none ∧ s.afterEvent e = s.afterDec) := by
  cases e with
  | present w =>
    simp only [PortEvent.keepsInvocation, PortEvent.pushedByte, State.afterEvent_present] at he ⊢
    generalize decode w = i at he ⊢
    cases i with
    | begin => contradiction
    | push b => exact .inl ⟨b, rfl, rfl⟩
    | valid => exact .inr (.inl ⟨rfl, rfl⟩)
    | dec => exact .inr (.inr ⟨rfl, rfl⟩)
    | id3v2Header h => contradiction
  | reset => contradiction

theorem State.afterEvent_readByte_below (s : State) {e : PortEvent} (he : e.keepsInvocation = true) {a : Nat}
    (ha : a < s.len.toNat) : (s.afterEvent e).buf.readByte a = s.buf.readByte a := by
  obtain ⟨b, -, hpush⟩ | ⟨-, hvalid⟩ | ⟨-, hdec⟩ := s.afterEvent_cases_of_keepsInvocation he
  · rw [hpush, s.afterPush_readByte_below b ha]
  · rw [hvalid, s.afterValid_buf]
  · rw [hdec, s.afterDec_buf]

theorem State.afterEvents_readByte_below (s : State) {es : List PortEvent}
    (hes : ∀ e ∈ es, e.keepsInvocation = true) {a : Nat} (ha : a < s.len.toNat) :
    (s.afterEvents es).buf.readByte a = s.buf.readByte a := by
  induction es generalizing s with
  | nil => rfl
  | cons e es ih =>
    obtain ⟨he, hes⟩ := List.forall_mem_cons.mp hes
    have hle := (s.extendedBy_afterEvent he).len_le
    exact (ih (s.afterEvent e) hes (ha.trans_le hle)).trans (s.afterEvent_readByte_below he ha)

/-- Settles O46: commands of one invocation only extend the sequence, and each leaves the bytes below `LEN`. -/
theorem capturedBytesNeverChange : Obligations.CapturedBytesNeverChange := by
  unfold Obligations.CapturedBytesNeverChange
  intro es s hes
  have hext := s.extendedBy_afterEvents hes
  exact ⟨s.afterEvents es, runEvents_eq_afterEvents es s, hext.present, hext.len_le,
    fun a => s.afterEvents_readByte_below hes⟩

/-- A `DEC` on a record that is held writes it again. -/
theorem State.Inv.afterDec_record {s : State} (h : s.Inv) (hhv : s.hv = true) :
    s.afterDec.headerRecord = s.headerRecord := by
  obtain ⟨hi, hw, hrecord⟩ := h.held_of_hv hhv
  obtain ⟨-, hdec⟩ := State.afterDec_answer_of_header (State.decFailure_eq_none.mpr ⟨hi, hw⟩)
  exact hdec.trans hrecord.symm

theorem State.Inv.afterEvent_record {s : State} (h : s.Inv) (hhv : s.hv = true) {e : PortEvent}
    (he : e.keepsInvocation = true) : (s.afterEvent e).headerRecord = s.headerRecord := by
  obtain ⟨b, -, hpush⟩ | ⟨-, hvalid⟩ | ⟨-, hdec⟩ := s.afterEvent_cases_of_keepsInvocation he
  · rw [hpush, s.afterPush_record b]
  · rw [hvalid, s.afterValid_record]
  · rw [hdec, h.afterDec_record hhv]

theorem State.Inv.afterEvents_record {s : State} (h : s.Inv) (hhv : s.hv = true) {es : List PortEvent}
    (hes : ∀ e ∈ es, e.keepsInvocation = true) : (s.afterEvents es).headerRecord = s.headerRecord := by
  induction es generalizing s with
  | nil => rfl
  | cons e es ih =>
    obtain ⟨he, hes⟩ := List.forall_mem_cons.mp hes
    have hrecord := h.afterEvent_record hhv he
    have hhv' : (s.afterEvent e).hv = true := (congrArg Record.hv hrecord).trans hhv
    exact (ih (h.afterEvent e) hhv' hes).trans hrecord

/-- Settles O47: each command of the invocation leaves the record or writes it again, so after the run the invariant
says that the captured header word is legal and the record is its own. -/
theorem headerRecordNeverChanges : Obligations.HeaderRecordNeverChanges := by
  unfold Obligations.HeaderRecordNeverChanges
  intro es s h hhv hes
  have ht : (s.afterEvents es).Inv := h.afterEvents es
  have hrecord : (s.afterEvents es).headerRecord = s.headerRecord := h.afterEvents_record hhv hes
  have hhv' : (s.afterEvents es).hv = true := (congrArg Record.hv hrecord).trans hhv
  obtain ⟨hi, hw, -⟩ := ht.held_of_hv hhv'
  obtain ⟨hvalid, hdec⟩ := State.res_of_legal hi hw
  exact ⟨_, _, _, runEvents_eq_afterEvents es s, hrecord, exec_eq_afterInstr .dec _, hdec,
    (ht.afterDec_record hhv').trans hrecord, exec_eq_afterInstr .valid _, hvalid,
    (s.afterEvents es).afterValid_record.trans hrecord⟩

end Sys2Proof.Machine
end

section
/-! What cannot be observed (spec/10_state.md R22, R36): every event takes states that differ at most in cells at or
above `LEN` to such states, and after `BEGIN` any two states are such but for what waits at the port. -/

namespace Sys2Proof.Machine

/-! ## The updates -/

theorem SameBelowLen.outputs_eq {s t : State} (h : SameBelowLen s t) : s.outputs = t.outputs := by
  rw [h.1]
  rfl

/-- States with no byte below `LEN` need only agree outside `BUF`. -/
theorem SameBelowLen.of_len_zero {s t : State} (h : t = { s with buf := t.buf }) (hl : s.len = 0#5) :
    SameBelowLen s t :=
  ⟨h, fun a ha => by simp [hl] at ha⟩

theorem SameBelowLen.setRes {s t : State} (h : SameBelowLen s t) (r : Res) : SameBelowLen (s.setRes r) (t.setRes r) :=
  ⟨congrArg (State.setRes · r) h.1, h.2⟩

theorem SameBelowLen.clearHeader {s t : State} (h : SameBelowLen s t) : SameBelowLen s.clearHeader t.clearHeader :=
  ⟨congrArg State.clearHeader h.1, h.2⟩

theorem SameBelowLen.storeRecord {s t : State} (h : SameBelowLen s t) (hw : HeaderWord) :
    SameBelowLen (s.storeRecord hw) (t.storeRecord hw) :=
  ⟨congrArg (State.storeRecord · hw) h.1, h.2⟩

/-! ## The commands -/

theorem SameBelowLen.afterBegin {s t : State} (h : SameBelowLen s t) : SameBelowLen s.afterBegin t.afterBegin :=
  .of_len_zero (congrArg State.afterBegin h.1) rfl

theorem SameBelowLen.afterReset {s t : State} (h : SameBelowLen s t) : SameBelowLen s.afterReset t.afterReset :=
  .of_len_zero (congrArg State.afterReset h.1) rfl

/-- A captured byte stands at `LEN` in both states, above all that they share already. -/
theorem SameBelowLen.afterPush {s t : State} (h : SameBelowLen s t) (b : Byte) :
    SameBelowLen (s.afterPush b) (t.afterPush b) := by
  obtain ⟨ht, hbytes⟩ := h
  have hp : t.present = s.present := congrArg (·.present) ht
  have hl : t.len = s.len := congrArg (·.len) ht
  obtain ⟨hpresent, hcap, hpush⟩ | ⟨hdrops, hpush⟩ := s.afterPush_cases b
  next =>
    have hpresent' : t.present = true := hp.trans hpresent
    have hcap' : t.len.toNat < Config.cap := hl ▸ hcap
    refine ⟨?registers, fun a ha => ?bytes⟩
    case registers =>
      rw [hpush, State.afterPush_captures b hpresent' hcap', hl]
      exact congrArg (fun u => (State.storeByte u s.len.toNat b).advanceLen) ht
    case bytes =>
      obtain ⟨hlen, -⟩ := State.afterPush_reads b hpresent hcap
      obtain hbelow | rfl : a < s.len.toNat ∨ a = s.len.toNat := by omega
      · rw [s.afterPush_loadByte_below b hbelow, t.afterPush_loadByte_below b (hl ▸ hbelow), hbytes a hbelow]
      · rw [State.afterPush_loadByte_len b hpresent hcap, ← hl, State.afterPush_loadByte_len b hpresent' hcap']
  next =>
    rw [hpush, State.afterPush_drops b (by rwa [hp, hl])]
    exact ⟨ht, hbytes⟩

theorem SameBelowLen.afterFeed {s t : State} (h : SameBelowLen s t) (bs : List Byte) :
    SameBelowLen (s.afterFeed bs) (t.afterFeed bs) := by
  induction bs generalizing s t with
  | nil => exact h
  | cons b bs ih => exact ih (h.afterPush b)

theorem SameBelowLen.inputFailure_eq {s t : State} (h : SameBelowLen s t) : s.inputFailure = t.inputFailure := by
  rw [h.1]
  rfl

/-- Where ten bytes are held the header word lies below `LEN`. -/
theorem SameBelowLen.headerWord_eq {s t : State} (h : SameBelowLen s t) (hi : s.inputFailure = none) :
    s.headerWord = t.headerWord := by
  obtain ⟨-, hl⟩ := State.inputFailure_eq_none.mp hi
  exact State.headerWord_congr fun a ha => h.2 a (ha.trans_le hl)

/-- `VALID` reads the header word only where ten bytes are held. -/
theorem SameBelowLen.afterValid {s t : State} (h : SameBelowLen s t) : SameBelowLen s.afterValid t.afterValid := by
  have hres : s.afterValid.res = t.afterValid.res := by
    cases hi : s.inputFailure with
    | some c =>
      rw [State.afterValid_res_of_inputFailure hi, State.afterValid_res_of_inputFailure (h.inputFailure_eq ▸ hi)]
    | none => exact State.afterValid_res_congr h.inputFailure_eq (h.headerWord_eq hi)
  rw [s.afterValid_eq, t.afterValid_eq, hres]
  exact h.setRes _

/-- So does `DEC`, which fails alike in both states or stores the same record. -/
theorem SameBelowLen.afterDec {s t : State} (h : SameBelowLen s t) : SameBelowLen s.afterDec t.afterDec := by
  have hfail : s.decFailure = t.decFailure := by
    cases hi : s.inputFailure with
    | some c => simp only [State.decFailure, hi, h.inputFailure_eq ▸ hi]
    | none => exact State.decFailure_congr h.inputFailure_eq (h.headerWord_eq hi)
  cases hd : s.decFailure with
  | some c =>
    rw [State.afterDec_fails hd, State.afterDec_fails (hfail ▸ hd)]
    exact h.clearHeader.setRes _
  | none =>
    obtain ⟨hi, -⟩ := State.decFailure_eq_none.mp hd
    rw [State.afterDec_succeeds hd, State.afterDec_succeeds (hfail ▸ hd), h.headerWord_eq hi]
    exact (h.storeRecord _).setRes _

theorem SameBelowLen.afterInstr {s t : State} (h : SameBelowLen s t) (i : Instr) :
    SameBelowLen (s.afterInstr i) (t.afterInstr i) := by
  cases i with
  | begin => exact h.afterBegin
  | push b => exact h.afterPush b
  | valid => exact h.afterValid
  | dec => exact h.afterDec
  | id3v2Header hw => exact (h.afterBegin.afterFeed (headerToBytes hw)).afterDec

theorem SameBelowLen.afterEvents {s t : State} (h : SameBelowLen s t) (es : List PortEvent) :
    SameBelowLen (s.afterEvents es) (t.afterEvents es) := by
  induction es generalizing s t with
  | nil => exact h
  | cons e es ih =>
    cases e with
    | present w => exact ih (h.afterInstr (decode w))
    | reset => exact ih h.afterReset

/-- Settles O53: every event keeps the relation, and it equates the outputs, which do not show `BUF`. -/
theorem cellsAboveLenAreUnobservable : Obligations.CellsAboveLenAreUnobservable := by
  unfold Obligations.CellsAboveLenAreUnobservable
  intro es s s' h
  exact ⟨_, _, runEvents_eq_afterEvents es s, runEvents_eq_afterEvents es s', h.afterEvents es,
    (h.afterEvents es).outputs_eq⟩

/-! ## After `BEGIN` (R83 (c)) -/

theorem State.afterEvents_withPort (s : State) (es : List PortEvent) (q : List PortEvent) :
    State.afterEvents { s with port := q } es = { s.afterEvents es with port := q } := by
  induction es generalizing s with
  | nil => rfl
  | cons e es ih => rw [State.afterEvents, State.afterEvents, State.afterEvent_withPort, ih]

/-- Two new invocations show the same outputs after the same events: with the same queue they differ at most in
`BUF`, and no output shows the queue. -/
theorem State.outputs_afterEvents_afterBegin (s t : State) (es : List PortEvent) :
    (s.afterBegin.afterEvents es).outputs = (t.afterBegin.afterEvents es).outputs := by
  have hsame : SameBelowLen s.afterBegin { t.afterBegin with port := s.port } := .of_len_zero rfl rfl
  calc (s.afterBegin.afterEvents es).outputs
    _ = (State.afterEvents { t.afterBegin with port := s.port } es).outputs := (hsame.afterEvents es).outputs_eq
    _ = (t.afterBegin.afterEvents es).outputs := by
      rw [State.afterEvents_withPort]
      rfl

/-- Settles O54: after `BEGIN` the states differ at most in `BUF` and the queue; the outputs are the registers, and the
derived ones their definitions. -/
theorem invocationsAreIndependent : Obligations.InvocationsAreIndependent := by
  unfold Obligations.InvocationsAreIndependent
  refine ⟨fun es s s' => ?independent, fun s => ?outputs, rfl⟩
  case independent =>
    exact ⟨_, _, runEvents_eq_afterEvents _ s, runEvents_eq_afterEvents _ s',
      s.outputs_afterEvents_afterBegin s' es⟩
  case outputs => exact ⟨rfl, rfl, rfl, rfl, rfl, rfl, rfl, rfl, State.full_iff, rfl, rfl, rfl⟩

/-- Settles O41: the output is the view `FULL` of the state, which compares `LEN` with 20. -/
theorem fullIsLenTwenty : Obligations.FullIsLenTwenty := by
  unfold Obligations.FullIsLenTwenty
  exact ⟨fun s => State.full_iff, rfl⟩

end Sys2Proof.Machine
end

section
/-! Steps and what waits at the port (spec/20_memory.md R51, spec/00_scope.md R16): a step takes the oldest event and
handles it, no event touches the queue, and the block's own step function is a step beside any queue. -/

namespace Sys2Proof.Machine

/-! ## One step -/

theorem step_of_empty {s : State} (hport : s.port = []) : step s = .next s := by
  simp only [step, State.takeEvent, hport]

theorem step_of_waiting {s : State} {e : PortEvent} {rest : List PortEvent} (hport : s.port = e :: rest) :
    step s = handleEvent e { s with port := rest } := by
  simp only [step, State.takeEvent, hport]

/-- Settles O36: the event at the head of the queue is handled, and a table word is offered as the word it stands
for. -/
theorem stepRunsTheDecodedWord : Obligations.StepRunsTheDecodedWord := by
  unfold Obligations.StepRunsTheDecodedWord
  refine ⟨fun s w rest => step_of_waiting, fun s rest => step_of_waiting, fun s => step_of_empty,
    fun s nbits w i hi => ?tableWord⟩
  case tableWord =>
    obtain ⟨p, hp, rfl⟩ := Option.map_eq_some_iff.mp hi
    have hoffer : s.withFetchWord nbits w = s.offerFirst (.present p) := by
      simp only [State.withFetchWord, State.offerTableWord, hp]
    rw [hoffer]
    exact step_of_waiting (s.offerFirst_port (.present p))

/-- Settles O37: an instruction and an event each have a state after them. -/
theorem everyStepHasANextState : Obligations.EveryStepHasANextState := by
  unfold Obligations.EveryStepHasANextState
  refine ⟨fun i s => ⟨_, exec_eq_afterInstr i s⟩, fun s => ?step⟩
  case step =>
    cases hport : s.port with
    | nil => exact ⟨s, step_of_empty hport⟩
    | cons e rest => exact ⟨_, (step_of_waiting hport).trans (handleEvent_eq_afterEvent e _)⟩

/-! ## Runs -/

theorem State.afterEvents_port (s : State) (es : List PortEvent) : (s.afterEvents es).port = s.port :=
  congrArg (·.port) (s.afterEvents_withPort es s.port)

/-- Settles O58: an event has the same effect whatever waits, and leaves that. -/
theorem eventsLeaveWhatWaitsAtThePort : Obligations.EventsLeaveWhatWaitsAtThePort := by
  unfold Obligations.EventsLeaveWhatWaitsAtThePort
  exact fun es s => ⟨s.afterEvents es, runEvents_eq_afterEvents es s, s.afterEvents_port es⟩

theorem run_succ_of_step {s t : State} (hstep : step s = .next t) (k : Nat) :
    Host.Core.run core (k + 1) s = Host.Core.run core k t := by
  have hcore : core.step s = .next t := hstep
  simp only [Host.Core.run, hcore]

/-- As many steps as events wait first take and handle those events. -/
theorem run_of_waiting (es rest : List PortEvent) (s : State) (hport : s.port = es ++ rest) :
    Host.Core.run core es.length s = .next (State.afterEvents { s with port := rest } es) := by
  induction es generalizing s with
  | nil =>
    obtain rfl : s.port = rest := hport
    rfl
  | cons e es ih =>
    have hstep : step s = .next (State.afterEvent { s with port := es ++ rest } e) :=
      (step_of_waiting hport).trans (handleEvent_eq_afterEvent e _)
    have hqueue : (State.afterEvent { s with port := es ++ rest } e).port = es ++ rest :=
      congrArg (·.port) (s.afterEvent_withPort e (es ++ rest))
    rw [List.length_cons, run_succ_of_step hstep, ih _ hqueue, State.afterEvents,
      s.afterEvent_withPort e (es ++ rest), s.afterEvent_withPort e rest]

/-- Settles O42: by induction on the events that wait, a step at a time. -/
theorem queueIsHandledInOrder : Obligations.QueueIsHandledInOrder := by
  unfold Obligations.QueueIsHandledInOrder
  exact fun es rest s hport => (run_of_waiting es rest s hport).trans (runEvents_eq_afterEvents es _).symm

/-! ## The block alone (R16) -/

/-- The state of the block after a list of inputs. -/
def BlockState.afterInputs (b : BlockState) (es : List BlockInput) : BlockState :=
  (State.afterEvents { toBlockState := b, port := [] } (es.map BlockInput.toEvent)).toBlockState

/-- Inputs have the same effect on the block beside any queue. -/
theorem BlockState.afterEvents_eq (b : BlockState) (es : List BlockInput) (q : List PortEvent) :
    State.afterEvents { toBlockState := b, port := q } (es.map BlockInput.toEvent) =
      { toBlockState := b.afterInputs es, port := q } :=
  State.afterEvents_withPort { toBlockState := b, port := [] } _ q

theorem blockStep_eq_afterInputs (e : BlockInput) (b : BlockState) : blockStep e b = .next (b.afterInputs [e]) :=
  blockStep_eq_afterEvent e b

theorem BlockState.afterInputs_cons (b : BlockState) (e : BlockInput) (es : List BlockInput) :
    b.afterInputs (e :: es) = (b.afterInputs [e]).afterInputs es :=
  congrArg (fun s : State => (s.afterEvents (es.map BlockInput.toEvent)).toBlockState) (b.afterEvents_eq [e] [])

theorem blockRun_eq_afterInputs (es : List BlockInput) (b : BlockState) : blockRun es b = .next (b.afterInputs es) := by
  induction es generalizing b with
  | nil => rfl
  | cons e es ih =>
    simp only [blockRun, blockStep_eq_afterInputs, ih, ← BlockState.afterInputs_cons]

/-- Settles O59: the block's step and run are those of the machine beside an empty queue, and a queue has no part in
either. -/
theorem blockStepsOnOneCommandOrReset : Obligations.BlockStepsOnOneCommandOrReset := by
  unfold Obligations.BlockStepsOnOneCommandOrReset
  refine ⟨fun e b => ⟨b.afterInputs [e], blockStep_eq_afterInputs e b, fun q => ?step⟩,
    fun es b => ⟨b.afterInputs es, blockRun_eq_afterInputs es b, fun q => ?run⟩⟩
  case step =>
    have hhandle : handleEvent e.toEvent { toBlockState := b, port := q } =
        .next { toBlockState := b.afterInputs [e], port := q } :=
      (handleEvent_eq_afterEvent _ _).trans (congrArg Host.Outcome.next (b.afterEvents_eq [e] q))
    exact ⟨hhandle, (step_of_waiting rfl).trans hhandle⟩
  case run =>
    have hrun := run_of_waiting (es.map BlockInput.toEvent) q { toBlockState := b, port := _ } rfl
    rw [List.length_map] at hrun
    exact hrun.trans (congrArg Host.Outcome.next (b.afterEvents_eq es q))

/-! ## The row `ID3V2_HEADER` (log 1) -/

/-- Settles O24: the instructions presented are decoded to themselves, and their effects are those of the row. -/
theorem headerWordIsParseOfItsBytes : Obligations.HeaderWordIsParseOfItsBytes := by
  unfold Obligations.HeaderWordIsParseOfItsBytes
  intro h s
  rw [exec_eq_afterInstr, runEvents_eq_afterEvents, State.afterEvents_presentAll_parseInstrs,
    State.afterInstr_id3v2Header]

/-- The inputs of the block for `PARSE` are the canonical words of its commands (R61, R74). -/
def parseInputs (bs : List Byte) : List BlockInput :=
  [.command 0x000#10] ++ bs.map (fun y => .command (0x100#10 + y.setWidth 10)) ++ [.command 0x300#10]

theorem map_toEvent_parseInputs (bs : List Byte) :
    (parseInputs bs).map BlockInput.toEvent = presentAll (parseInstrs bs) := by
  obtain ⟨-, hbegin, hpush, -, hdec⟩ := opcodeMapByMatchAndMask
  simp [parseInputs, presentAll, parseInstrs, feedInstrs, BlockInput.toEvent, hbegin, hpush, hdec]

/-- Settles O60: the twelve inputs are those of `PARSE` of the ten bytes, which the row is (O24), beside any queue. -/
theorem headerWordIsTwelveStepsOfTheBlock : Obligations.HeaderWordIsTwelveStepsOfTheBlock := by
  unfold Obligations.HeaderWordIsTwelveStepsOfTheBlock
  refine fun h b => ⟨_, blockRun_eq_afterInputs (parseInputs (headerToBytes h)) b, fun q => ?_⟩
  rw [headerWordIsParseOfItsBytes h, runEvents_eq_afterEvents, ← map_toEvent_parseInputs, BlockState.afterEvents_eq]

end Sys2Proof.Machine
end

section
/-! Whole invocations (spec/40_capture.md R83, spec/30_encoding.md R74): what the buffer holds after `BEGIN` and any
commands, and what `VALID` and `DEC` answer about it. -/

namespace Sys2Proof.Machine

/-! ## The buffer of a new invocation (R83 (a)) -/

/-- What a new invocation holds after a feed, cell by cell: the bytes fed, up to 20, and above them what was there. -/
theorem State.afterBegin_afterFeed_readByte (s : State) (bs : List Byte) (a : Nat) :
    (s.afterBegin.afterFeed bs).buf.readByte a = if a < min bs.length 20 then bs[a]? else s.buf.readByte a := by
  obtain ⟨-, -, habove, hfed⟩ := s.afterBegin.afterFeed_reads bs rfl (Nat.zero_le _)
  simp only [State.afterBegin_len, BitVec.toNat_zero, Nat.zero_add] at habove hfed
  split
  next ha => exact hfed a (ha.trans_le (min_le_right _ _)) (ha.trans_le (min_le_left _ _))
  next ha => exact habove a (Nat.le_of_not_lt ha)

/-- The sequence of a state: what `PUSH` reads and writes. -/
def State.sequence (s : State) : Bool × LenWord × Memory := (s.present, s.len, s.buf)

theorem State.sequence_eq_iff {s t : State} :
    s.sequence = t.sequence ↔ s.present = t.present ∧ s.len = t.len ∧ s.buf = t.buf := by
  simp [State.sequence]

theorem State.afterValid_sequence (s : State) : s.afterValid.sequence = s.sequence :=
  State.sequence_eq_iff.mpr ⟨s.afterValid_present, s.afterValid_len, s.afterValid_buf⟩

theorem State.afterDec_sequence (s : State) : s.afterDec.sequence = s.sequence :=
  State.sequence_eq_iff.mpr ⟨s.afterDec_present, s.afterDec_len, s.afterDec_buf⟩

theorem State.afterPush_sequence_congr {s t : State} (h : s.sequence = t.sequence) (b : Byte) :
    (s.afterPush b).sequence = (t.afterPush b).sequence := by
  obtain ⟨hp, hl, hb⟩ := State.sequence_eq_iff.mp h
  obtain ⟨hpresent, hcap, hpush⟩ | ⟨hdrops, hpush⟩ := s.afterPush_cases b
  · rw [hpush, State.afterPush_captures b (hp ▸ hpresent) (hl ▸ hcap)]
    simp [State.sequence, hp, hl, hb]
  · rwa [hpush, State.afterPush_drops b (by rwa [← hp, ← hl])]

theorem State.afterFeed_sequence_congr {s t : State} (h : s.sequence = t.sequence) (bs : List Byte) :
    (s.afterFeed bs).sequence = (t.afterFeed bs).sequence := by
  induction bs generalizing s t with
  | nil => exact h
  | cons b bs ih => exact ih (State.afterPush_sequence_congr h b)

/-- On the sequence, commands of one invocation are the feed of the bytes they push. -/
theorem State.afterEvents_sequence (s : State) {es : List PortEvent} (hes : ∀ e ∈ es, e.keepsInvocation = true) :
    (s.afterEvents es).sequence = (s.afterFeed (pushedBytes es)).sequence := by
  induction es generalizing s with
  | nil => rfl
  | cons e es ih =>
    obtain ⟨he, hes⟩ := List.forall_mem_cons.mp hes
    rw [State.afterEvents, ih _ hes]
    obtain ⟨b, hb, hpush⟩ | ⟨hnone, hvalid⟩ | ⟨hnone, hdec⟩ := s.afterEvent_cases_of_keepsInvocation he
    · rw [hpush, pushedBytes, pushedBytes, List.filterMap_cons_some hb, State.afterFeed]
    · rw [hvalid, pushedBytes, pushedBytes, List.filterMap_cons_none hnone]
      exact State.afterFeed_sequence_congr s.afterValid_sequence _
    · rw [hdec, pushedBytes, pushedBytes, List.filterMap_cons_none hnone]
      exact State.afterFeed_sequence_congr s.afterDec_sequence _

/-- Settles O52: on the sequence the commands are the feed of the pushed bytes, which a new invocation holds up to
20. -/
theorem captureHoldsTheFirstTwentyBytes : Obligations.CaptureHoldsTheFirstTwentyBytes := by
  unfold Obligations.CaptureHoldsTheFirstTwentyBytes
  intro es s hes
  obtain ⟨hp, hl, hb⟩ := State.sequence_eq_iff.mp (s.afterBegin.afterEvents_sequence hes)
  obtain ⟨hpresent, hlen, -⟩ := s.afterBegin_afterFeed_reads (pushedBytes es)
  refine ⟨s.afterBegin.afterEvents es, runEvents_eq_afterEvents _ s, hp.trans hpresent, hl ▸ hlen, fun i hi => ?_⟩
  rw [hb, State.afterBegin_afterFeed_readByte, if_pos hi]

/-! ## The answer about a feed (R74) -/

/-- The header word of a feed is its first ten bytes. -/
theorem State.afterBegin_afterFeed_headerWord (s : State) (h : HeaderWord) (rest : List Byte) :
    (s.afterBegin.afterFeed (headerToBytes h ++ rest)).headerWord = h := by
  obtain ⟨-, -, hbytes⟩ := s.afterBegin_afterFeed_reads (headerToBytes h ++ rest)
  have hlen : (headerToBytes h ++ rest).length = 10 + rest.length := List.length_append
  simp only [State.headerWord, hbytes 0 (by omega) (by omega), hbytes 1 (by omega) (by omega),
    hbytes 2 (by omega) (by omega), hbytes 3 (by omega) (by omega), hbytes 4 (by omega) (by omega),
    hbytes 5 (by omega) (by omega), hbytes 6 (by omega) (by omega), hbytes 7 (by omega) (by omega),
    hbytes 8 (by omega) (by omega), hbytes 9 (by omega) (by omega)]
  rfl

/-- A feed of ten bytes or more leaves no failure of the sequence itself. -/
theorem State.afterBegin_afterFeed_inputFailure (s : State) {bs : List Byte} (hbs : 10 ≤ bs.length) :
    (s.afterBegin.afterFeed bs).inputFailure = none := by
  obtain ⟨hpresent, hlen, -⟩ := s.afterBegin_afterFeed_reads bs
  refine State.inputFailure_eq_none.mpr ⟨hpresent, ?_⟩
  rw [hlen]
  exact le_min hbs (by decide)

theorem ten_le_length_headerToBytes_append (h : HeaderWord) (rest : List Byte) :
    10 ≤ (headerToBytes h ++ rest).length := by
  simp [headerToBytes]

/-- The state answers a `DEC` of the header word (R106). -/
structure State.Decodes (t : State) (h : HeaderWord) : Prop where
  legal : legal10 h = true → t.res = .rHeader ∧ t.headerRecord = recordOf h
  illegal : legal10 h = false → t.res = .eTag ∧ t.headerRecord = Record.empty

/-- `DEC` decodes the first ten bytes of a feed (R106). -/
theorem State.afterDec_decodes_feed (s : State) (h : HeaderWord) (rest : List Byte) :
    (s.afterBegin.afterFeed (headerToBytes h ++ rest)).afterDec.Decodes h := by
  have hi := s.afterBegin_afterFeed_inputFailure (ten_le_length_headerToBytes_append h rest)
  have hword := s.afterBegin_afterFeed_headerWord h rest
  refine ⟨fun hw => ?legal, fun hw => ?illegal⟩
  case legal =>
    have hanswer := State.afterDec_answer_of_header (State.decFailure_eq_none.mpr ⟨hi, hword.symm ▸ hw⟩)
    rwa [hword] at hanswer
  case illegal =>
    exact State.afterDec_answer_of_failure (State.decFailure_eq_tag.mpr ⟨hi, hword.symm ▸ hw⟩)

theorem State.afterBegin_afterFeed_short (s : State) {bs : List Byte} (hbs : bs.length < 10) :
    (s.afterBegin.afterFeed bs).inputFailure = some .short :=
  State.afterFeed_inputFailure_short s.afterBegin_present (by simpa using hbs)

/-- Settles O55: the invocation is a feed and a `DEC`, which fails on fewer than ten bytes and decodes the first ten
otherwise. -/
theorem parseDecodesTheFirstTenBytes : Obligations.ParseDecodesTheFirstTenBytes := by
  unfold Obligations.ParseDecodesTheFirstTenBytes
  intro bs s
  obtain ⟨hpresent, hlen, -⟩ := s.afterBegin_afterFeed_reads bs
  refine ⟨(s.afterBegin.afterFeed bs).afterDec, ?run, ?present, ?len, fun hbs => ?short, ?header⟩
  case run => rw [runEvents_eq_afterEvents, State.afterEvents_presentAll_parseInstrs]
  case present => rwa [State.afterDec_present]
  case len => rwa [State.afterDec_len]
  case short => exact State.afterDec_answer_of_inputFailure (s.afterBegin_afterFeed_short hbs)
  case header =>
    rintro h rest rfl
    have hdecodes := s.afterDec_decodes_feed h rest
    exact ⟨hdecodes.legal, hdecodes.illegal⟩

theorem State.afterEvents_presentAll_checkInstrs (s : State) (bs : List Byte) :
    s.afterEvents (presentAll (checkInstrs bs)) = (s.afterBegin.afterFeed bs).afterValid := by
  rw [checkInstrs, State.afterEvents_presentAll_cons, presentAll, List.map_append, State.afterEvents_append]
  exact congrArg State.afterValid (s.afterBegin.afterEvents_presentAll_feedInstrs bs)

/-- Settles O56: the invocation is a feed and a `VALID`, neither of which writes the record that `BEGIN` cleared. -/
theorem checkAnswersByTheFirstTenBytes : Obligations.CheckAnswersByTheFirstTenBytes := by
  unfold Obligations.CheckAnswersByTheFirstTenBytes
  intro bs s
  refine ⟨(s.afterBegin.afterFeed bs).afterValid, ?run, ?record, fun hbs => ?short, ?header⟩
  case run => rw [runEvents_eq_afterEvents, State.afterEvents_presentAll_checkInstrs]
  case record =>
    obtain ⟨-, -, hrecord, -⟩ := s.afterBegin.afterFeed_unwritten bs
    rw [State.afterValid_record, hrecord]
    exact s.afterBegin_record
  case short => exact State.afterValid_res_of_inputFailure (s.afterBegin_afterFeed_short hbs)
  case header =>
    rintro h rest rfl
    have hi := s.afterBegin_afterFeed_inputFailure (ten_le_length_headerToBytes_append h rest)
    rw [State.afterValid_res_of_held hi, s.afterBegin_afterFeed_headerWord h rest]

/-! ## The row `ID3V2_HEADER` (log 1) -/

theorem State.afterInstr_id3v2Header_readByte (s : State) (h : HeaderWord) (a : Nat) :
    (s.afterInstr (.id3v2Header h)).buf.readByte a = if a < 10 then (headerToBytes h)[a]? else s.buf.readByte a := by
  rw [State.afterInstr_id3v2Header, State.afterDec_buf, State.afterBegin_afterFeed_readByte]
  rfl

theorem State.afterInstr_id3v2Header_decodes (s : State) (h : HeaderWord) :
    (s.afterInstr (.id3v2Header h)).Decodes h := by
  have hdecodes := s.afterDec_decodes_feed h []
  rwa [List.append_nil] at hdecodes

theorem State.afterInstr_id3v2Header_holds (s : State) (h : HeaderWord) :
    (s.afterInstr (.id3v2Header h)).present = true ∧ (s.afterInstr (.id3v2Header h)).len.toNat = 10 := by
  obtain ⟨hpresent, hlen, -⟩ := s.afterBegin_afterFeed_reads (headerToBytes h)
  rw [State.afterInstr_id3v2Header, State.afterDec_present, State.afterDec_len]
  exact ⟨hpresent, hlen⟩

theorem State.afterInstr_port (s : State) (i : Instr) : (s.afterInstr i).port = s.port :=
  congrArg (·.port) (s.afterInstr_withPort i s.port)

/-- Settles O23: the row is a feed of ten bytes to a new invocation, and a `DEC` on them. -/
theorem headerWordCapturesAndDecodes : Obligations.HeaderWordCapturesAndDecodes := by
  unfold Obligations.HeaderWordCapturesAndDecodes
  intro h s
  obtain ⟨hpresent, hlen⟩ := s.afterInstr_id3v2Header_holds h
  have hdecodes := s.afterInstr_id3v2Header_decodes h
  have hread := s.afterInstr_id3v2Header_readByte h
  refine ⟨s.afterInstr (.id3v2Header h), exec_eq_afterInstr _ s, hpresent, hlen, s.afterInstr_port _,
    fun a ha => (hread a).trans (if_pos ha), fun a ha => (hread a).trans (if_neg ha.not_gt),
    fun hw => ?legal, hdecodes.illegal⟩
  case legal =>
    obtain ⟨hres, hrecord⟩ := hdecodes.legal hw
    exact ⟨hres, Record.mk.inj hrecord⟩

end Sys2Proof.Machine
end

section
/-! Where a change comes from (spec/10_state.md R24, R25, spec/20_memory.md R42, spec/40_capture.md R83): for each
element, the commands that can write it, and what `VALID` and `DEC` answer in the same state. -/

namespace Sys2Proof.Machine

/-! ## The outcome (R24, R97) -/

/-- What `VALID` and `DEC` answer in one state, by the four things that can be said of its sequence (R97). -/
theorem State.answer_cases (s : State) :
    (s.afterValid.res = .eAbsent ∧ s.afterDec.res = .eAbsent) ∨
    (s.afterValid.res = .eShort ∧ s.afterDec.res = .eShort) ∨
    (s.afterValid.res = .rTrue ∧ s.afterDec.res = .rHeader) ∨
    (s.afterValid.res = .rFalse ∧ s.afterDec.res = .eTag) := by
  cases hi : s.inputFailure with
  | some c =>
    have hvalid := State.afterValid_res_of_inputFailure hi
    have hdec := State.afterDec_res_of_inputFailure hi
    cases c with
    | absent => exact .inl ⟨hvalid, hdec⟩
    | short => exact .inr (.inl ⟨hvalid, hdec⟩)
    | tag => exact absurd hi s.inputFailure_ne_tag
  | none =>
    cases hw : legal10 s.headerWord with
    | true => exact .inr (.inr (.inl (State.res_of_legal hi hw)))
    | false => exact .inr (.inr (.inr (State.res_of_illegal hi hw)))

/-- Settles O29: the four answers pair one outcome of `VALID` with one of `DEC`. -/
theorem validAndDecAgree : Obligations.ValidAndDecAgree := by
  unfold Obligations.ValidAndDecAgree
  refine fun s => ⟨s.afterValid, s.afterDec, exec_eq_afterInstr .valid s, exec_eq_afterInstr .dec s, ?_⟩
  rcases s.answer_cases with ⟨hvalid, hdec⟩ | ⟨hvalid, hdec⟩ | ⟨hvalid, hdec⟩ | ⟨hvalid, hdec⟩ <;>
    simp [hvalid, hdec]

/-- A header word leaves one of the two outcomes of a `DEC` with ten bytes held. -/
theorem State.afterInstr_id3v2Header_res (s : State) (h : HeaderWord) :
    (s.afterInstr (.id3v2Header h)).res = .rHeader ∨ (s.afterInstr (.id3v2Header h)).res = .eTag := by
  have hdecodes := s.afterInstr_id3v2Header_decodes h
  cases hw : legal10 h with
  | true => exact .inl (hdecodes.legal hw).1
  | false => exact .inr (hdecodes.illegal hw).1

/-- Settles O51: one case for each instruction; `PUSH` changes no outcome, and the others leave only outcomes of their
own. -/
theorem outcomesComeFromTheirCommands : Obligations.OutcomesComeFromTheirCommands := by
  unfold Obligations.OutcomesComeFromTheirCommands
  refine ⟨fun i s t ht hne => ?sources, Res.code_ne_seven⟩
  obtain rfl : s.afterInstr i = t := exec_eq_next_iff.mp ht
  cases i with
  | begin => simp [State.afterInstr_begin]
  | push b => exact absurd (s.afterPush_res b) hne
  | valid =>
    rw [State.afterInstr_valid]
    rcases s.answer_cases with ⟨hvalid, -⟩ | ⟨hvalid, -⟩ | ⟨hvalid, -⟩ | ⟨hvalid, -⟩ <;> simp [hvalid]
  | dec =>
    rw [State.afterInstr_dec]
    rcases s.answer_cases with ⟨-, hdec⟩ | ⟨-, hdec⟩ | ⟨-, hdec⟩ | ⟨-, hdec⟩ <;> simp [hdec]
  | id3v2Header h => rcases s.afterInstr_id3v2Header_res h with hres | hres <;> simp [hres]

/-! ## The record (R25) -/

/-- A `DEC` that does not give `R_HEADER` clears the record. -/
theorem State.afterDec_record_of_failure {s : State} (hres : s.afterDec.res ≠ .rHeader) :
    s.afterDec.headerRecord = Record.empty := by
  cases hd : s.decFailure with
  | some c => exact (State.afterDec_answer_of_failure hd).2
  | none => exact absurd (State.afterDec_res_eq_rHeader.mpr hd) hres

/-- A record after `DEC` says that it gave `R_HEADER`. -/
theorem State.afterDec_res_of_hv {s : State} (hhv : s.afterDec.hv = true) : s.afterDec.res = .rHeader := by
  by_contra hres
  have hclear : s.afterDec.hv = false := congrArg Record.hv (State.afterDec_record_of_failure hres)
  exact absurd (hclear.symm.trans hhv) (by decide)

/-- Settles O50: `HV` is what it was after `PUSH` and `VALID` and zero after `BEGIN`; after `DEC`, which a header word
ends in, it says that the outcome is `R_HEADER`. -/
theorem recordIsWrittenByDecOnly : Obligations.RecordIsWrittenByDecOnly := by
  unfold Obligations.RecordIsWrittenByDecOnly
  refine ⟨fun i s t ht hclear hset => ?written, fun b s t u ht hu => ?left, fun s t d ht hd => ?cleared⟩
  case written =>
    obtain rfl : s.afterInstr i = t := exec_eq_next_iff.mp ht
    cases i with
    | begin => exact absurd hset (Bool.eq_false_iff.mp (congrArg Record.hv s.afterBegin_record))
    | push b =>
      rw [State.afterInstr_push, State.afterPush_hv, hclear] at hset
      contradiction
    | valid =>
      rw [State.afterInstr_valid, State.afterValid_hv, hclear] at hset
      contradiction
    | dec => exact ⟨State.afterDec_res_of_hv hset, .inl rfl⟩
    | id3v2Header h =>
      rw [State.afterInstr_id3v2Header] at hset ⊢
      exact ⟨State.afterDec_res_of_hv hset, .inr ⟨h, rfl⟩⟩
  case left =>
    obtain rfl : s.afterValid = t := exec_eq_next_iff.mp ht
    obtain rfl : s.afterPush b = u := exec_eq_next_iff.mp hu
    exact ⟨s.afterValid_record, s.afterPush_record b⟩
  case cleared =>
    obtain rfl : s.afterBegin = t := exec_eq_next_iff.mp ht
    obtain rfl : s.afterDec = d := exec_eq_next_iff.mp hd
    exact ⟨s.afterBegin_record, State.afterDec_record_of_failure, rfl⟩

/-! ## The buffer and the count (R42, R83) -/

/-- A byte that a `PUSH` changes is the one at `LEN`, below 20, with a sequence present. -/
theorem State.afterPush_changes {s : State} {b : Byte} {a : Nat}
    (hne : (s.afterPush b).buf.readByte a ≠ s.buf.readByte a) :
    s.present = true ∧ a = s.len.toNat ∧ a < 20 ∧ (s.afterPush b).buf.readByte a = some b := by
  obtain ⟨hp, hl, -⟩ | ⟨-, hpush⟩ := s.afterPush_cases b
  · obtain ⟨-, hread⟩ := State.afterPush_reads b hp hl
    obtain rfl : a = s.len.toNat := by
      by_contra ha
      exact hne ((hread a).trans (if_neg ha))
    exact ⟨hp, rfl, hl, (hread _).trans (if_pos rfl)⟩
  · exact absurd (by rw [hpush]) hne

/-- Settles O48: `BEGIN`, `VALID` and `DEC` do not write `BUF`, `PUSH` writes at `LEN`, and a header word at 0 to 9. -/
theorem onlyCaptureWritesTheBuffer : Obligations.OnlyCaptureWritesTheBuffer := by
  unfold Obligations.OnlyCaptureWritesTheBuffer
  intro i s t a ht hne
  obtain rfl : s.afterInstr i = t := exec_eq_next_iff.mp ht
  cases i with
  | begin => exact absurd rfl hne
  | push b => exact .inl ⟨b, rfl, State.afterPush_changes hne⟩
  | valid => exact absurd (congrArg (Memory.readByte · a) s.afterValid_buf) hne
  | dec => exact absurd (congrArg (Memory.readByte · a) s.afterDec_buf) hne
  | id3v2Header h =>
    have hread := s.afterInstr_id3v2Header_readByte h a
    have ha : a < 10 := by
      by_contra hge
      exact hne (hread.trans (if_neg hge))
    exact .inr ⟨h, rfl, ha, hread.trans (if_pos ha)⟩

/-- Settles O49: `PUSH`, `VALID` and `DEC` never lower `LEN`, so the event is none of them. -/
theorem lenDecreasesOnlyByBeginOrReset : Obligations.LenDecreasesOnlyByBeginOrReset := by
  unfold Obligations.LenDecreasesOnlyByBeginOrReset
  intro s t e ht hlt
  obtain rfl : s.afterEvent e = t := Host.Outcome.next.inj ((handleEvent_eq_afterEvent e s).symm.trans ht)
  cases hkeeps : e.keepsInvocation with
  | true => exact absurd (s.extendedBy_afterEvent hkeeps).len_le hlt.not_ge
  | false =>
    cases e with
    | reset => exact .inl rfl
    | present w =>
      refine .inr ⟨w, rfl, ?_⟩
      rw [PortEvent.keepsInvocation] at hkeeps
      cases hd : decode w with
      | begin => exact .inl rfl
      | id3v2Header h => exact .inr ⟨h, rfl⟩
      | push b => simp [hd, Instr.keepsInvocation] at hkeeps
      | valid => simp [hd, Instr.keepsInvocation] at hkeeps
      | dec => simp [hd, Instr.keepsInvocation] at hkeeps

/-- Settles O39: every element of the reset state is given as its value; the flag outputs are views of a `FLAGS` of
zero. -/
theorem resetStateHoldsTheResetValues : Obligations.ResetStateHoldsTheResetValues := by
  unfold Obligations.ResetStateHoldsTheResetValues
  obtain ⟨hunsync, hexthdr, hexper⟩ := State.flagOutputs_zero (s := State.reset) rfl
  exact ⟨rfl, rfl, rfl, rfl, rfl, rfl, rfl, rfl, hunsync, hexthdr, hexper, rfl⟩

end Sys2Proof.Machine
end

section
/-! The sync-safe size as four digits (spec/42_decode.md R105) and the number of legal header words
(spec/30_encoding.md R69). -/

namespace Sys2Proof.Machine

/-! ## The four digits side by side (R105) -/

theorem extractLsb'_digit_toNat (b : Byte) : (b.extractLsb' 0 7).toNat = b.toNat % 128 :=
  BitVec.extractLsb'_toNat 0 7 b

theorem toNat_append_eq_add {m n : Nat} (x : BitVec m) (y : BitVec n) :
    (x ++ y).toNat = x.toNat * 2 ^ n + y.toNat := by
  rw [BitVec.toNat_append, ← Nat.shiftLeft_add_eq_or_of_lt y.isLt, Nat.shiftLeft_eq]

/-- The bit form stands for the low seven bits of each byte, in radix 128. -/
theorem syncSafeBits_toNat (b6 b7 b8 b9 : Byte) : (syncSafeBits b6 b7 b8 b9).toNat =
    b6.toNat % 128 * 2097152 + b7.toNat % 128 * 16384 + b8.toNat % 128 * 128 + b9.toNat % 128 := by
  rw [syncSafeBits, BitVec.toNat_setWidth_of_le (by decide)]
  simp only [toNat_append_eq_add, extractLsb'_digit_toNat]
  ring

/-- A byte is its own low seven bits exactly when it is legal, and no sum of greater digits is the same. -/
theorem syncSafe_eq_syncSafeBits_iff {b6 b7 b8 b9 : Byte} :
    syncSafe b6 b7 b8 b9 = syncSafeBits b6 b7 b8 b9 ↔ sizeOk b6 b7 b8 b9 = true := by
  rw [← BitVec.toNat_inj, syncSafe_toNat, syncSafeNat_eq_sum, syncSafeBits_toNat]
  simp only [sizeOk_iff, sizeByteOk_iff_toNat_lt]
  omega

/-- A field of the size register, by its place. -/
theorem syncSafe_extractLsb' {b6 b7 b8 b9 : Byte} {start len : Nat} {x : BitVec len}
    (hx : syncSafeNat b6 b7 b8 b9 / 2 ^ start % 2 ^ len = x.toNat) :
    (syncSafe b6 b7 b8 b9).extractLsb' start len = x := by
  rw [← BitVec.toNat_inj, BitVec.extractLsb'_toNat, syncSafe_toNat, Nat.shiftRight_eq_div_pow, hx]

/-- Settles O17: both forms are sums of four digits, equal when every byte is its own digit; each field of the sum is
one of the digits. -/
theorem syncSafeIsConcatenationExactlyOnLegalBytes : Obligations.SyncSafeIsConcatenationExactlyOnLegalBytes := by
  unfold Obligations.SyncSafeIsConcatenationExactlyOnLegalBytes
  refine fun b6 b7 b8 b9 => ⟨syncSafe_eq_syncSafeBits_iff, fun hok => ?fields⟩
  simp only [sizeOk_iff, sizeByteOk_iff_toNat_lt] at hok
  refine ⟨syncSafe_extractLsb' ?_, syncSafe_extractLsb' ?_, syncSafe_extractLsb' ?_, syncSafe_extractLsb' ?_,
    syncSafe_extractLsb' ?_⟩
  all_goals
    simp only [syncSafeNat_eq_sum, extractLsb'_digit_toNat, BitVec.toNat_zero]
    omega

/-- Settles O18: digits below 128 are determined by the number they stand for, and every number below `128^4` has
four. -/
theorem syncSafeIsOneToOneAndOnto : Obligations.SyncSafeIsOneToOneAndOnto := by
  unfold Obligations.SyncSafeIsOneToOneAndOnto
  refine ⟨fun b6 b7 b8 b9 c6 c7 c8 c9 hb hc heq => ?oneToOne, fun n hn => ?onto⟩
  case oneToOne =>
    rw [← BitVec.toNat_inj, syncSafe_toNat, syncSafe_toNat, syncSafeNat_eq_sum, syncSafeNat_eq_sum] at heq
    simp only [sizeOk_iff, sizeByteOk_iff_toNat_lt] at hb hc
    simp only [← BitVec.toNat_inj]
    omega
  case onto =>
    exact ⟨sizeDigit n 3, sizeDigit n 2, sizeDigit n 1, sizeDigit n 0,
      sizeOk_iff.mpr ⟨sizeByteOk_sizeDigit n 3, sizeByteOk_sizeDigit n 2, sizeByteOk_sizeDigit n 1,
        sizeByteOk_sizeDigit n 0⟩,
      (syncSafe_toNat _ _ _ _).trans (syncSafeNat_sizeDigits hn)⟩

/-! ## The number of legal header words (R69) -/

/-- The bytes below a bound, as the numbers below it. -/
def bytesBelow (n : Nat) (hn : n ≤ 256) : { b : Byte // b.toNat < n } ≃ Fin n where
  toFun b := ⟨b.1.toNat, b.2⟩
  invFun i := ⟨BitVec.ofNat 8 i, by rw [BitVec.toNat_ofNat]; exact (Nat.mod_le _ _).trans_lt i.2⟩
  left_inv b := Subtype.ext (by simp)
  right_inv i := Fin.ext (by simp only [BitVec.toNat_ofNat]; omega)

theorem card_bytesBelow {n : Nat} (hn : n ≤ 256) : Nat.card { b : Byte // b.toNat < n } = n := by
  rw [Nat.card_congr (bytesBelow n hn), Nat.card_fin]

/-- The legal flags bytes, as their three flag bits. -/
def legalFlagsBytes : { b : Byte // flagsOk b = true } ≃ BitVec 3 where
  toFun b := flagBits b.1
  invFun f := ⟨f ++ 0#5, flagsOk_iff_lowBits.mpr BitVec.extractLsb'_append_eq_right⟩
  left_inv b := Subtype.ext (by
    have hb := flagBits_append_lowBits b.1
    rwa [flagsOk_iff_lowBits.mp b.2] at hb)
  right_inv f := BitVec.extractLsb'_append_eq_left

theorem card_legalFlagsBytes : Nat.card { b : Byte // flagsOk b = true } = 8 := by
  rw [Nat.card_congr (legalFlagsBytes.trans BitVec.equivFin.toEquiv), Nat.card_fin]
  rfl

/-- Header words, as their ten bytes. -/
def headerWords : HeaderBits ≃ HeaderWord where
  toFun := headerOfBits
  invFun := headerToBits
  left_inv := headerToBits_headerOfBits
  right_inv := headerOfBits_headerToBits

/-- `Legal10`, byte by byte. -/
structure LegalBytes (h : HeaderWord) : Prop where
  sig : h.sig0 = 0x49#8 ∧ h.sig1 = 0x44#8 ∧ h.sig2 = 0x33#8
  ver : h.ver.toNat < 0xFF
  rev : h.rev.toNat < 0xFF
  flags : flagsOk h.flags = true
  sz3 : h.sz3.toNat < 0x80
  sz2 : h.sz2.toNat < 0x80
  sz1 : h.sz1.toNat < 0x80
  sz0 : h.sz0.toNat < 0x80

theorem legal10_iff_legalBytes {h : HeaderWord} : legal10 h = true ↔ LegalBytes h := by
  simp only [legal10_iff, sigOk_iff, verOk_iff_toNat_lt, sizeOk_iff, sizeByteOk_iff_toNat_lt]
  exact ⟨fun ⟨hsig, ⟨hver, hrev⟩, hflags, h3, h2, h1, h0⟩ => ⟨hsig, hver, hrev, hflags, h3, h2, h1, h0⟩,
    fun h => ⟨h.sig, ⟨h.ver, h.rev⟩, h.flags, h.sz3, h.sz2, h.sz1, h.sz0⟩⟩

/-- The bytes that a legal header word is free to choose: version, revision, flags, and four size digits. -/
abbrev FreeBytes : Type :=
  { b : Byte // b.toNat < 0xFF } × { b : Byte // b.toNat < 0xFF } × { b : Byte // flagsOk b = true } ×
  { b : Byte // b.toNat < 0x80 } × { b : Byte // b.toNat < 0x80 } ×
  { b : Byte // b.toNat < 0x80 } × { b : Byte // b.toNat < 0x80 }

/-- The legal header words, as their free bytes. -/
def legalHeaderWords : { h : HeaderWord // legal10 h = true } ≃ FreeBytes where
  toFun := fun ⟨h, hlegal⟩ =>
    have hb := legal10_iff_legalBytes.mp hlegal
    (⟨h.ver, hb.ver⟩, ⟨h.rev, hb.rev⟩, ⟨h.flags, hb.flags⟩, ⟨h.sz3, hb.sz3⟩, ⟨h.sz2, hb.sz2⟩, ⟨h.sz1, hb.sz1⟩,
      ⟨h.sz0, hb.sz0⟩)
  invFun := fun (⟨v, hv⟩, ⟨r, hr⟩, ⟨f, hf⟩, ⟨z3, h3⟩, ⟨z2, h2⟩, ⟨z1, h1⟩, ⟨z0, h0⟩) =>
    ⟨⟨0x49#8, 0x44#8, 0x33#8, v, r, f, z3, z2, z1, z0⟩,
      legal10_iff_legalBytes.mpr ⟨⟨rfl, rfl, rfl⟩, hv, hr, hf, h3, h2, h1, h0⟩⟩
  left_inv := fun ⟨h, hlegal⟩ => by
    obtain ⟨h0, h1, h2⟩ := (legal10_iff_legalBytes.mp hlegal).sig
    exact Subtype.ext (by simp [← h0, ← h1, ← h2])
  right_inv _ := rfl

/-- Settles O9: a header word is its ten bytes, three of which a legal one fixes; 255 versions, 255 revisions, 8 flags
bytes and 128 of each size digit are left. -/
theorem numberOfLegalHeaderWords : Obligations.NumberOfLegalHeaderWords := by
  unfold Obligations.NumberOfLegalHeaderWords
  have hlegal (w : HeaderBits) :
      (∃ h, decode (.header w) = .id3v2Header h ∧ legal10 h = true) ↔ legal10 (headerWords w) = true := by
    simp [decode, headerWords]
  rw [Nat.card_congr ((headerWords.subtypeEquiv hlegal).trans legalHeaderWords)]
  simp only [Nat.card_prod, card_bytesBelow (show 0xFF ≤ 256 by decide), card_bytesBelow (show 0x80 ≤ 256 by decide),
    card_legalFlagsBytes]

end Sys2Proof.Machine
end

section
/-! Lines of text (spec/30_encoding.md R73, R74): a mnemonic and the operands after it are cut apart, and the operands
read as their bytes in each written form. -/

namespace Sys2Proof.Machine

/-- A mnemonic is one piece, and its operands are cut as if they stood alone. -/
theorem lexLine_mnemonic {name : List Char} (hplain : name.all isPlainChar = true) (hname : name ≠ [])
    (texts : List (List Char)) :
    lexLine [] (name ++ operandText texts) = .word name :: lexLine [] (operandText texts) := by
  have hblank (r : List Char) : lexLine [] (name ++ ' ' :: r) = .word name :: lexLine [] (' ' :: r) := by
    rw [lexLine_word hplain, lexLine_blank, lexLine_blank, List.append_nil, flushWord_reverse hname]
    rfl
  match texts with
  | [] => rw [operandText, List.append_nil, (lexLine_word_alone hplain hname).1]; rfl
  | [t] => exact hblank t
  | t :: u :: ts => exact hblank (t ++ [','] ++ operandText (u :: ts))

theorem assembleLine_mnemonic {name : List Char} (hplain : name.all isPlainChar = true) (hname : name ≠ [])
    (texts : List (List Char)) :
    assembleLine (name ++ operandText texts) = instrsOfMnemonic name (lexLine [] (operandText texts)) := by
  rw [assembleLine, lexLine_mnemonic hplain hname]

/-- Settles O11: the operands read as their bytes, whichever of the three mnemonics stands before them. -/
theorem pseudoInstructionsExpand : Obligations.PseudoInstructionsExpand := by
  unfold Obligations.PseudoInstructionsExpand
  intro texts bs h
  have hbytes := byteOperands_operandText h
  refine ⟨?feed, ?parse, ?check⟩ <;> rw [assembleLine_mnemonic (by decide) (by decide)]
  case feed => simp [instrsOfMnemonic, hbytes, Except.map, feedInstrs]
  case parse => simp [instrsOfMnemonic, hbytes, Except.map, parseInstrs, feedInstrs]
  case check => simp [instrsOfMnemonic, hbytes, Except.map, checkInstrs, feedInstrs]

/-- A line of `PUSH` with a byte in any written form. -/
theorem assembleLine_push {t : List Char} {b : Byte} (h : IsByteText t b) :
    assembleLine (['P', 'U', 'S', 'H', ' '] ++ t) = .ok [.push b] := by
  have hbytes : byteOperands (lexLine [] (operandText [t])) = .ok [b] := byteOperands_operandText (.cons h .nil)
  calc assembleLine (['P', 'U', 'S', 'H', ' '] ++ t)
    _ = instrsOfMnemonic ['P', 'U', 'S', 'H'] (lexLine [] (operandText [t])) :=
      assembleLine_mnemonic (name := ['P', 'U', 'S', 'H']) (by decide) (by decide) [t]
    _ = .ok [.push b] := by simp [instrsOfMnemonic, hbytes]

theorem isByteText_hexByte (b : Byte) : IsByteText (hexByte b) b := .inl rfl

theorem isByteText_decByte (b : Byte) : IsByteText (decByte b) b := .inr (.inl rfl)

theorem isByteText_quoted {c : Char} (h : isPrintable c = true) :
    IsByteText ['\'', c, '\''] (BitVec.ofNat 8 c.toNat) := .inr (.inr ⟨c, h, rfl, rfl⟩)

/-- Settles O10: `PUSH` reads its byte in each form, and the line of a header word is `PARSE` with its ten bytes. -/
theorem writtenLinesAssembleBack : Obligations.WrittenLinesAssembleBack := by
  unfold Obligations.WrittenLinesAssembleBack
  refine ⟨by decide, fun b => assembleLine_push (isByteText_hexByte b),
    fun b => assembleLine_push (isByteText_decByte b), fun c hlow hhigh => ?quoted, by decide, by decide,
    fun h => ?header⟩
  case quoted =>
    have hprintable : isPrintable c = true := by simp [isPrintable, hlow, hhigh]
    exact assembleLine_push (isByteText_quoted hprintable)
  case header =>
    have htexts : List.Forall₂ IsByteText ((headerToBytes h).map hexByte) (headerToBytes h) :=
      List.forall₂_map_left_iff.mpr (List.forall₂_same.mpr fun b _ => isByteText_hexByte b)
    obtain ⟨-, hparse, -⟩ := pseudoInstructionsExpand _ _ htexts
    exact hparse

end Sys2Proof.Machine
end
